-- ==== Sys2Proof/Word.lean ====
section
/-! DEFINITION. Words: the byte, the one width of data in the engine (00 R8 `CELL_W`, R13), and the shape of the permutation
table. -/

namespace Sys2Proof

/-- A byte: an unsigned integer in 0..255 (00 R13). Addition on it is addition mod 256 (00 R15), `^^^` is XOR (00 R16). -/
abbrev Byte := BitVec 8

/-- The shape of `T`: 256 cells of one byte (10 R31). -/
abbrev Table := Vector Byte 256

end Sys2Proof
end

