-- ==== Sys2Proof/Config.lean ====
section
/-! DEFINITION. Config: the parameters the spec fixes (00 R8), the parameters it leaves open (00 R9), the free values
(93 U3, U4, U13) and the names of the fault kinds. An `opaque` constant has no body: no proof can see its value. -/

namespace Sys2Proof

/-- The four fault kinds (00 R21, 60 R210, R215): the source's three and the spec's own `IllegalCommand`. A fault kind is
reported in `STATUS.KIND` (30 R95); it stops no machine. -/
inductive FaultKind where
  /-- The key is empty when SCHED runs (60 R211). -/
  | invalidKey
  /-- A hex string of odd length or with a character that is no hex digit (60 R212). -/
  | malformedHex
  /-- A decoded ciphertext of fewer than 16 bytes (60 R213). -/
  | payloadTooShort
  /-- A reserved command code (60 R215). -/
  | illegalCommand
deriving DecidableEq, Repr

/-- `PREFIX_LEN` (00 R8). -/
abbrev Config.prefixLen : Nat := 9

/-- `SUFFIX_LEN` (00 R8). -/
abbrev Config.suffixLen : Nat := 7

/-- `SALT_TOTAL` (00 R8): 9 + 7 = 16. -/
abbrev Config.saltTotal : Nat := Config.prefixLen + Config.suffixLen

/-- `DEFAULT_KEY_LEN` (00 R8). -/
abbrev Config.defaultKeyLen : Nat := 8

/-- The value J starts from in SCHED (40 R122): the spec's decision D10, from general knowledge (93 G1), kept here under a
name so that it can be changed in one place. DEDUCED, unsafe, log 12. -/
abbrev Config.schedStartJ : Byte := 0

/-- The value I and J start from in XFORM (41 R141). -/
abbrev Config.xformStart : Byte := 0

/-- OPEN (00 R9): the eight characters of the default shared key, 7-bit each. DESIGN CHOICE, safe, log 2. -/
opaque Config.defaultKeyChar : Fin 8 → BitVec 7

/-- `DEFAULT_KEY[x]` as a byte, in 0x00..0x7F (00 R9). -/
def Config.defaultKey (x : Fin 8) : Byte := (Config.defaultKeyChar x).setWidth 8

/-- OPEN (00 R9): by how much `KEY_MAX` exceeds 8. DESIGN CHOICE, safe, log 2. -/
opaque Config.keyRoom : Nat

/-- `KEY_MAX`, the capacity of KEYBUF: any number from 8 up (00 R9). -/
def Config.keyMax : Nat := Config.keyRoom + 8

/-- OPEN (00 R9): by how much `IN_MAX` exceeds 32. DESIGN CHOICE, safe, log 2. -/
opaque Config.inRoom : Nat

/-- `IN_MAX`, the capacity of INBUF: any number from 32 up (00 R9). -/
def Config.inMax : Nat := Config.inRoom + 32

/-- `OUT_MAX`, the capacity of OUTBUF (00 R9, 10 R38). -/
def Config.outMax : Nat := 2 * Config.inMax + 32

/-- OPEN (00 R9): by how much `LEN_W` exceeds the least width that holds every legal length. DESIGN CHOICE, safe, log 2. -/
opaque Config.lenRoom : Nat

/-- `LEN_W`, the width of KEYLEN, INLEN and OUTLEN: any width with `2 ^ LEN_W > max KEY_MAX OUT_MAX` (00 R9). -/
def Config.lenW : Nat := (max Config.keyMax Config.outMax).log2 + 1 + Config.lenRoom

/-- OPEN (00 R9, 92 D27): where an integrator maps the register numbers. No rule depends on it and no definition reads it. -/
opaque Config.busBase : Nat

/-- OPEN (00 R9, 92 D27): the distance of two mapped registers. No rule depends on it and no definition reads it. -/
opaque Config.busStride : Nat

/-- Free value (10 R45, 93 U13): the answer of the randomness source to draw number `n`. DESIGN CHOICE, safe, log 4. -/
opaque Config.draw : Nat → Fin 62

/-- Free value (10 R37, 93 U4): what free read number `n` of an OUTBUF cell at or above OUTLEN answers. DESIGN CHOICE, safe,
log 3. -/
opaque Config.freeByte : Nat → Byte

/-- Free value (10 R49, 93 U3): what `T` holds after a reset. DESIGN CHOICE, safe, log 1. -/
opaque Config.resetTable : Nat → Table

/-- Free value (10 R49, 93 U3): what `I` holds after a reset. DESIGN CHOICE, safe, log 1. -/
opaque Config.resetI : Nat → Byte

/-- Free value (10 R49, 93 U3): what `J` holds after a reset. DESIGN CHOICE, safe, log 1. -/
opaque Config.resetJ : Nat → Byte

end Sys2Proof
end

