-- ==== Sys2Proof/Syntax.lean ====
section
/-! DEFINITION. Syntax: the five commands of spec/opcode_table.json (30 R91). A command has no operand field: its operands
are implicit in KEYBUF, INBUF and the RND port (30 R90, R93). SCHED, XFORM and SALT have no code and no constructor: they
run only as parts of commands (30 R91). -/

namespace Sys2Proof

/-- One constructor per row of the opcode table. -/
inductive Instr where
  /-- HEXENC, 0x01: bytes to a hex string (42 R161). -/
  | hexenc
  /-- HEXDEC, 0x02: a hex string to bytes (42 R163). -/
  | hexdec
  /-- ENCPW, 0x03: encrypt a password (43 R182). -/
  | encpw
  /-- DECPW, 0x04: decrypt a password (43 R185). -/
  | decpw
  /-- CIPHER, 0x05: schedule, then transform raw bytes (41 R146). -/
  | cipher
deriving DecidableEq, Repr

end Sys2Proof
end

