-- ==== Sys2Proof/WellFormed.lean ====
section
/-! DEFINITION. WellFormed: what a command and a command word must satisfy before they are decoded or encoded. -/

namespace Sys2Proof

/-- Every command is well formed: format C8 has no register field, no immediate and no mode bit that could hold an illegal
value (30 R90, R93). -/
def Instr.wf : Instr → Bool
  | .hexenc => true
  | .hexdec => true
  | .encpw => true
  | .decpw => true
  | .cipher => true

/-- A word given as a number of bits and a value is a command word when it is one byte: every command is one byte, with no
longer and no shorter form (30 R90, R94). -/
def wordWf (nbits w : Nat) : Bool := nbits == 8 && decide (w < 256)

end Sys2Proof
end

