-- ==== Sys2Proof/Decode.lean ====
section
/-! DEFINITION. Decode: the command byte (30 R90 to R94) read and written. -/

namespace Sys2Proof

/-- The command a byte written to CMD selects (30 R91). Total: `0x00` and `0x06..0xFF` are rejected by name, as
IllegalCommand (30 R92, 60 R215). -/
def decodeByte (b : Byte) : Except FaultKind Instr :=
  if b = 0x01 then .ok .hexenc
  else if b = 0x02 then .ok .hexdec
  else if b = 0x03 then .ok .encpw
  else if b = 0x04 then .ok .decpw
  else if b = 0x05 then .ok .cipher
  else .error .illegalCommand

/-- The code of a command (30 R91). -/
def encode : Instr → Byte
  | .hexenc => 0x01
  | .hexdec => 0x02
  | .encpw => 0x03
  | .decpw => 0x04
  | .cipher => 0x05

/-- The command read from a word of `nbits` bits with value `w`, bit 0 the least significant bit of its one byte; none where
the decoder rejects it or where it is not one byte. -/
def decodeTableWord (nbits w : Nat) : Option Instr :=
  if wordWf nbits w then (decodeByte (BitVec.ofNat 8 w)).toOption else none

end Sys2Proof
end

