-- ==== Sys2Proof/Machine/Access.lean ====
section
/-! DEFINITION. Access: what the world outside the engine can do to it (20 R60, R67, 70 R240, 10 R46), as plain data. -/

namespace Sys2Proof.Machine

/-- The spaces a host access can name (20 R61, R67). -/
inductive Space where
  /-- The register space: CMD 0, STATUS 1, KEYLEN 2, INLEN 3, OUTLEN 4. -/
  | reg
  | keybuf
  | inbuf
  | outbuf
  /-- T, I and J. No access reaches them (10 R31, R33, R48). -/
  | engine
deriving DecidableEq, Repr

/-- One indivisible host access (20 R60, R66): a location by space and number, and for a write the value put on the port. -/
inductive Access where
  | wr (space : Space) (number value : Nat)
  | rd (space : Space) (number : Nat)
deriving DecidableEq, Repr

/-- What a read returns to the host (20 R60): a byte, or a length register whole. -/
inductive ReadData where
  | byte (v : Byte)
  | length (n : Nat)
deriving DecidableEq, Repr

/-- What can happen next. The list of events still to come decides who moves when: a rule of the spec holds for every list. -/
inductive Event where
  /-- The host performs an access (20 R60). -/
  | host (a : Access)
  /-- The engine takes its turn: a command in flight runs to its end as one atomic transition (20 R70). -/
  | engine
  /-- An ENCPW in flight takes its next draw ahead of its end (70 R242 speaks of draws already taken while BUSY = 1). -/
  | draw
  /-- The reset input is applied (70 R240), also while a command is in flight (70 R242). -/
  | reset
  /-- The test bench puts values on the 6-bit RND port, to be drawn in this order (10 R46, 30 R105 `RND`). -/
  | source (draws : List (BitVec 6))
deriving DecidableEq, Repr

end Sys2Proof.Machine
end

