-- ==== Sys2Proof/Machine/State.lean ====
section
/-! DEFINITION. State: all the spec gives the engine (10 R30), the ends of its ports, and the model's own bookkeeping, as plain
data, with the state after reset (10 R49). -/

namespace Sys2Proof.Machine

/-- A buffer's contents: (index, byte) pairs in rising order of index, one per cell that holds a value. -/
abbrev Memory := List Host.Cell

/-- The registers only SCHED and XFORM touch (10 R31, R33). No host access reaches them. -/
structure Cipher where
  /-- `T`, the permutation table (10 R31). -/
  T : Table
  /-- `I`, the running index (10 R33). -/
  I : Byte
  /-- `J`, the accumulator (10 R33). -/
  J : Byte
deriving DecidableEq, Repr

/-- The state. `cipher` to `status` are the spec's architectural state, whole (10 R30); `rndQueue`, `drawn` and `readData` are
the two ports' other ends; `command`, `taken`, `script` and `free` are the model's own (log 1, 3, 5, 6, 14). -/
structure State where
  /-- `T`, `I` and `J`. -/
  cipher : Cipher
  /-- `KEYBUF` (10 R34). -/
  keybuf : Memory
  /-- `KEYLEN` (10 R35). -/
  keylen : Nat
  /-- `INBUF` (10 R36). -/
  inbuf : Memory
  /-- `INLEN` (10 R36). -/
  inlen : Nat
  /-- `OUTBUF` (10 R37): the cells whose value the spec defines; the others hold an unspecified value. -/
  outbuf : Memory
  /-- `OUTLEN` (10 R37). -/
  outlen : Nat
  /-- `STATUS` (10 R40). -/
  status : Byte
  /-- The RND port: answers put there by a test bench and not drawn yet (10 R46). -/
  rndQueue : List (Fin 62)
  /-- The RND port: how many draws have been taken (20 R66, 43 R183). -/
  drawn : Nat
  /-- The host port: what the last read returned (20 R60), none before the first. -/
  readData : Option ReadData
  /-- The command byte in flight while BUSY = 1 (10 R39); the model's own (10 R43). -/
  command : Option Byte
  /-- The draws the ENCPW in flight has taken already, first first (70 R242); the model's own (10 R47). -/
  taken : List (Fin 62)
  /-- The events still to come, first first; the model's own. -/
  script : List Event
  /-- How many free values have been used; the model's own. No statement rests on its value. -/
  free : Nat
deriving DecidableEq, Repr

/-- Why the machine stops at an access. None of the engine's own four fault kinds is here: those are next states (60 R216). -/
inductive Fault where
  /-- Raised by a host access whose buffer index is at or above the buffer's capacity, or whose register number is 5 or above:
  it names no cell and no register (20 R67, R68, 93 U7). Safe: the spec refuses such an access, so no run it describes
  contains one. -/
  | noSuchLocation
deriving DecidableEq, Repr

/-- Why a step has no meaning. Each is a host or environment misuse the spec itself refuses. -/
inductive Refusal where
  /-- Raised by exec for an instruction that has no meaning yet. Safe. No arm raises it. -/
  | notModelled (mnemonic : String)
  /-- Raised by any access other than RD STATUS while BUSY = 1 (20 R73, 93 U2). Safe. -/
  | accessWhileBusy
  /-- Raised by a write of KEYLEN above KEY_MAX or of INLEN above IN_MAX (10 R35, R36, 93 U6). Safe. -/
  | lengthAboveCapacity
  /-- Raised by an access outside the interface: a read of KEYBUF, INBUF or CMD, a write of OUTBUF, OUTLEN or STATUS, any access
  to T, I, J, a value wider than an 8-bit location (10 R48, 20 R60, 93 U7). Safe. -/
  | outsideInterface
  /-- Raised by WR CMD, and by a command's own transition, when a KEYBUF cell below KEYLEN (for a command that uses the key) or
  an INBUF cell below INLEN holds no value (10 R50, 93 U5). Safe. -/
  | unwrittenInput
  /-- Raised when the randomness source presents 62 or 63 on its 6-bit port (10 R45, 93 U8). Safe. -/
  | drawOutOfRange
deriving DecidableEq, Repr

/-- KEYBUF after reset (10 R49): the default key in cells 0..7, no value in any other cell. -/
def defaultKeyCells : Memory :=
  [(0, Config.defaultKey 0), (1, Config.defaultKey 1), (2, Config.defaultKey 2), (3, Config.defaultKey 3),
   (4, Config.defaultKey 4), (5, Config.defaultKey 5), (6, Config.defaultKey 6), (7, Config.defaultKey 7)]

/-- T, I and J after a reset: unspecified (10 R49, R50), so free values, the `n`th of them (log 1). -/
def resetCipher (n : Nat) : Cipher :=
  { T := Config.resetTable n, I := Config.resetI n, J := Config.resetJ n }

/-- The machine right after reset (10 R49, 70 R240): STATUS 0x00, the default key in place, INLEN and OUTLEN 0, idle, with
nothing to come. -/
def State.reset : State where
  cipher := resetCipher 0
  keybuf := defaultKeyCells
  keylen := Config.defaultKeyLen
  inbuf := []
  inlen := 0
  outbuf := []
  outlen := 0
  status := 0x00
  rndQueue := []
  drawn := 0
  readData := none
  command := none
  taken := []
  script := []
  free := 1

end Sys2Proof.Machine
end

