-- ==== Sys2Proof/Machine/Flags.lean ====
section
/-! DEFINITION. Flags: the fields and the values of STATUS (10 R40, R41, 30 R95). They are the engine's only flags; no
arithmetic sets one (10 R42). -/

namespace Sys2Proof.Machine

/-- The `KIND` code of a fault kind (30 R95). -/
def kindCode : FaultKind → BitVec 3
  | .invalidKey => 1
  | .malformedHex => 2
  | .payloadTooShort => 3
  | .illegalCommand => 4

/-- `STATUS` bit 0 (10 R40). -/
def busyBit (st : Byte) : Bool := st.getLsbD 0

/-- `STATUS` bit 1 (10 R40). -/
def doneBit (st : Byte) : Bool := st.getLsbD 1

/-- `STATUS` bit 2 (10 R40). -/
def errBit (st : Byte) : Bool := st.getLsbD 2

/-- `STATUS` bits 6:4 (10 R40). -/
def kindField (st : Byte) : BitVec 3 := st.extractLsb' 4 3

/-- A STATUS byte from its fields, the reserved bits 3 and 7 at 0 (10 R40). -/
def statusOf (busy done err : Bool) (kind : BitVec 3) : Byte :=
  BitVec.ofBool false ++ kind ++ BitVec.ofBool false ++ BitVec.ofBool err ++ BitVec.ofBool done ++ BitVec.ofBool busy

/-- STATUS from a command's start to its end: 0x01 (10 R39, R41). -/
def statusBusy : Byte := statusOf true false false 0

/-- STATUS after a command that succeeded: 0x02 (10 R41). -/
def statusSuccess : Byte := statusOf false true false 0

/-- STATUS after a fault: 0x16, 0x26, 0x36 or 0x46 (60 R216). -/
def statusFault (k : FaultKind) : Byte := statusOf false true true (kindCode k)

end Sys2Proof.Machine
end

