-- ==== Sys2Proof/Machine/Ops.lean ====
section
/-! DEFINITION. Ops: the named operations over buffers, table and registers that the meanings are written with, the end of a
command in success or in a fault, the start of a command, and the reset input. -/

namespace Sys2Proof.Machine

/-- What a buffer cell that is not listed reads as: no value (10 R50). -/
def Memory.unlisted : Option Byte := none

/-- The value of the cell at index `a`, none where it holds none. -/
def Memory.read : Memory → Nat → Option Byte
  | [], _ => Memory.unlisted
  | (k, v) :: rest, a => if a = k then some v else Memory.read rest a

/-- Write one cell, keeping the list in rising order with one entry per index. -/
def Memory.write : Memory → Nat → Byte → Memory
  | [], a, v => [(a, v)]
  | (k, w) :: rest, a, v =>
    if a < k then (a, v) :: (k, w) :: rest
    else if a = k then (a, v) :: rest
    else (k, w) :: Memory.write rest a v

/-- The canonical form: indices strictly rising. An entry holds a byte, so none equals what an unlisted cell reads as. -/
abbrev Memory.wf (m : Memory) : Prop := List.Pairwise (fun p q : Host.Cell => p.1 < q.1) m

/-- The `n` bytes from index `a` up (00 R14), none if some of those cells holds no value. -/
def Memory.bytesFrom (m : Memory) (a : Nat) : Nat → Option (List Byte)
  | 0 => some []
  | n + 1 =>
    match Memory.read m a with
    | none => none
    | some v => (Memory.bytesFrom m (a + 1) n).map (v :: ·)

/-- A buffer whose cells from index `a` up hold `bytes`, and that holds no value elsewhere. -/
def Memory.ofBytes (a : Nat) : List Byte → Memory
  | [] => []
  | b :: rest => (a, b) :: Memory.ofBytes (a + 1) rest

/-- `T[x]` (00 R19). -/
def tableGet (t : Table) (x : Byte) : Byte := t[x.toNat]'x.isLt

/-- `swap(T[a], T[b])` (00 R19): both cells are read before either is written; with `a = b` nothing changes (44 R205). -/
def tableSwap (t : Table) (a b : Byte) : Table :=
  (t.set a.toNat (tableGet t b) a.isLt).set b.toNat (tableGet t a) b.isLt

/-- The table with `T[x] = x` in every cell (40 R122). -/
def identityTable : Table := Vector.ofFn fun x => BitVec.ofNat 8 x.val

/-- Put the table and the indices where a micro-operation left them. -/
def State.setCipher (s : State) (c : Cipher) : State := { s with cipher := c }

/-- The start of a command (10 R39): the outcome of the previous command is cleared, STATUS becomes BUSY, and the byte is in
flight, with no draw taken yet. It is also all that returning from a fault takes (60 R219). -/
def State.start (s : State) (b : Byte) : State := { s with status := statusBusy, command := some b, taken := [] }

/-- The end of a command in success (10 R41): OUTBUF[0..] holds the result and nothing else, OUTLEN is its length. -/
def State.succeed (s : State) (out : List Byte) : State :=
  { s with outbuf := Memory.ofBytes 0 out, outlen := out.length, status := statusSuccess }

/-- Fault entry, what `raise k` does (60 R216): OUTLEN becomes 0, every OUTBUF cell unspecified, STATUS reports the kind, and
nothing else changes. There is no vector, no handler and no saved register. -/
def State.raise (s : State) (k : FaultKind) : State :=
  { s with outbuf := [], outlen := 0, status := statusFault k }

/-- The end of a command whose result or fault has been decided (00 R12): one of the two ways, never both. -/
def State.finish (s : State) : Except FaultKind (List Byte) → State
  | .ok out => s.succeed out
  | .error k => s.raise k

/-- The answer the randomness source gives next (10 R45): the one a test bench put on the port, else a free value. -/
def State.portAnswer (s : State) : Fin 62 :=
  match s.rndQueue with
  | [] => Config.draw s.drawn
  | r :: _ => r

/-- The state once that answer has been consumed (20 R66). -/
def State.consume (s : State) : State := { s with rndQueue := s.rndQueue.tail, drawn := s.drawn + 1 }

/-- An ENCPW in flight takes its next draw ahead of its end: the answer is gone from the port and kept for SALT. -/
def State.takeDraw (s : State) : State := { s.consume with taken := s.taken ++ [s.portAnswer] }

/-- What the next `Draw()` of SALT gives (43 R180): a draw taken already, else the port's answer. -/
def State.draw (s : State) : Fin 62 :=
  match s.taken with
  | [] => s.portAnswer
  | r :: _ => r

/-- The state once SALT has used that draw. -/
def State.afterDraw (s : State) : State :=
  match s.taken with
  | [] => s.consume
  | _ :: rest => { s with taken := rest }

/-- A read returns `d` to the host and has no other effect (20 R66). -/
def State.returns (s : State) (d : ReadData) : State := { s with readData := some d }

/-- The reset input (70 R240): every register and buffer of the engine takes its value of 10 R49, T, I and J fresh free values;
a command in flight is abandoned, and the draws it has taken are not returned (70 R242). The randomness source, the host's last read and the events to come are outside the
engine and stay. -/
def State.applyReset (s : State) : State :=
  { State.reset with
    cipher := resetCipher s.free
    free := s.free + 1
    rndQueue := s.rndQueue
    drawn := s.drawn
    readData := s.readData
    script := s.script }

end Sys2Proof.Machine
end

