-- ==== Sys2Proof/Machine/Operands.lean ====
section
/-! DEFINITION. Operands: a command's implicit operands (30 R90) and what is assembled from data (30 R93): hex digits, hex
values, salt characters, the payload. -/

namespace Sys2Proof.Machine

/-- `KEYBUF[0 .. KEYLEN-1]` (10 R34), none if a cell below KEYLEN holds no value. -/
def State.key (s : State) : Option (List Byte) := Memory.bytesFrom s.keybuf 0 s.keylen

/-- `INBUF[0 .. INLEN-1]` (10 R36), none if a cell below INLEN holds no value. -/
def State.input (s : State) : Option (List Byte) := Memory.bytesFrom s.inbuf 0 s.inlen

/-- The commands that run SCHED and so read the key (60 R211). -/
def usesKey : Instr → Bool
  | .hexenc => false
  | .hexdec => false
  | .encpw => true
  | .decpw => true
  | .cipher => true

/-- Whether every cell the launch of `i` requires holds a value (93 U5): INBUF below INLEN and, for a command that uses the
key, KEYBUF below KEYLEN. -/
def inputsDefined (i : Instr) (s : State) : Bool := s.input.isSome && (!usesKey i || s.key.isSome)

/-- Run a command's transition on its input bytes; with an undefined cell among them there is no transition (10 R50). -/
def State.withInput (s : State) (run : List Byte → Host.Outcome State Fault Refusal) : Host.Outcome State Fault Refusal :=
  match s.input with
  | none => .refused .unwrittenInput
  | some data => run data

/-- Run a command's transition on its key and input bytes; with an undefined cell among them there is no transition (10 R50). -/
def State.withKeyAndInput (s : State) (run : List Byte → List Byte → Host.Outcome State Fault Refusal) :
    Host.Outcome State Fault Refusal :=
  match s.key with
  | none => .refused .unwrittenInput
  | some key => s.withInput (run key)

/-- `ord(HexDigit(n))` for a nibble `n` (30 R97): `'0' + n` up to 9, `'A' + (n - 10)` above. -/
def hexDigit (n : Nat) : Byte := if n ≤ 9 then BitVec.ofNat 8 (0x30 + n) else BitVec.ofNat 8 (0x37 + n)

/-- `HexValue(c)` (30 R98): both cases are accepted, the 234 other bytes are invalid. -/
def hexValue (c : Byte) : Option Nat :=
  if 0x30 ≤ c.toNat ∧ c.toNat ≤ 0x39 then some (c.toNat - 0x30)
  else if 0x41 ≤ c.toNat ∧ c.toNat ≤ 0x46 then some (c.toNat - 0x37)
  else if 0x61 ≤ c.toNat ∧ c.toNat ≤ 0x66 then some (c.toNat - 0x57)
  else none

/-- The byte two digit values stand for, the first the high nibble (20 R63). -/
def byteOfDigits (hi lo : Nat) : Byte := BitVec.ofNat 8 (16 * hi + lo)

/-- `ord(ALPHA[r])` (30 R100): digits, then upper-case letters, then lower-case letters. -/
def alpha (r : Fin 62) : Byte :=
  if r.val ≤ 9 then BitVec.ofNat 8 (0x30 + r.val)
  else if r.val ≤ 35 then BitVec.ofNat 8 (0x37 + r.val)
  else BitVec.ofNat 8 (0x3D + r.val)

/-- The payload (30 R101): the first salt, the password, the second salt. -/
def payload (before password after : List Byte) : List Byte := before ++ password ++ after

/-- The bytes of a string under the fixed text encoding, one per character (00 R22, 30 R107). -/
def ascii (s : String) : List Byte := s.toList.map fun c => BitVec.ofNat 8 c.toNat

end Sys2Proof.Machine
end

