-- ==== Sys2Proof/Machine/HexCodec.lean ====
section
/-! DEFINITION. HexCodec: the functions HexEnc and HexDec (42 R160, R162) and the commands HEXENC and HEXDEC. -/

namespace Sys2Proof.Machine

/-- `HexEnc` (42 R160): two upper-case digits a byte, the high nibble first. -/
def hexEnc : List Byte → List Byte
  | [] => []
  | b :: rest => hexDigit (b.toNat / 16) :: hexDigit (b.toNat % 16) :: hexEnc rest

/-- The digit loop of `HexDec` (42 R162), two characters a byte. A single character left over is an odd length. -/
def hexDecPairs : List Byte → Except FaultKind (List Byte)
  | [] => .ok []
  | [_] => .error .malformedHex
  | c :: d :: rest =>
    match hexValue c, hexValue d with
    | some hi, some lo => (hexDecPairs rest).map (byteOfDigits hi lo :: ·)
    | _, _ => .error .malformedHex

/-- `HexDec` (42 R162): MalformedHex for an odd length or for a character that is no hex digit. -/
def hexDec (s : List Byte) : Except FaultKind (List Byte) :=
  if s.length % 2 = 1 then .error .malformedHex else hexDecPairs s

/-- HEXENC (42 R161): never faults and does not use the key. -/
def execHexenc (s : State) : Host.Outcome State Fault Refusal :=
  s.withInput fun data => .next (s.succeed (hexEnc data))

/-- HEXDEC (42 R163): the whole result, or MalformedHex and none of it; does not use the key. -/
def execHexdec (s : State) : Host.Outcome State Fault Refusal :=
  s.withInput fun data => .next (s.finish (hexDec data))

end Sys2Proof.Machine
end

