-- ==== Sys2Proof/Machine/KeyScheduler.lean ====
section
/-! DEFINITION. KeyScheduler: the micro-operation SCHED (40 R120 to R123). -/

namespace Sys2Proof.Machine

/-- What SCHED starts its loop from (40 R122): the identity table and J = 0, whatever the registers held before. I is the
loop counter and is written by each iteration before it is read (10 R33). -/
def schedStart : Cipher := { T := identityTable, I := 0, J := Config.schedStartJ }

/-- `KEYBUF[x mod KEYLEN]` (44 R204, form "key, modular"). The default is never used: SCHED has rejected the empty key. -/
def keyByte (key : List Byte) (x : Nat) : Byte := key.getD (x % key.length) 0

/-- One iteration of SCHED's loop with `I = x` (40 R123): J from its old value, the key byte and the current `T[I]`; then the
swap, with the new J. -/
def schedStep (key : List Byte) (x : Nat) (c : Cipher) : Cipher :=
  let i : Byte := BitVec.ofNat 8 x
  let j : Byte := c.J + keyByte key x + tableGet c.T i
  { T := tableSwap c.T i j, I := i, J := j }

/-- The registers after the first `n` iterations, I = 0 .. n-1 (40 R123). -/
def schedAfter (key : List Byte) : Nat → Cipher
  | 0 => schedStart
  | n + 1 => schedStep key n (schedAfter key n)

/-- SCHED (40 R120): InvalidKey for the empty key, before anything is written (40 R121); else 256 iterations. The registers'
old contents are overwritten unread (10 R44). -/
def sched (key : List Byte) : Except FaultKind Cipher :=
  if key.length = 0 then .error .invalidKey else .ok (schedAfter key 256)

end Sys2Proof.Machine
end

