-- ==== Sys2Proof/Machine/Keystream.lean ====
section
/-! DEFINITION. Keystream: the micro-operation XFORM (41 R140 to R142) and the command CIPHER (41 R146). -/

namespace Sys2Proof.Machine

/-- XFORM's initialisation: both indices at zero (41 R141). -/
def xformStart (c : Cipher) : Cipher := { c with I := Config.xformStart, J := Config.xformStart }

/-- The first three steps of an XFORM iteration (41 R142): I, then J, then the swap. -/
def xformStep (c : Cipher) : Cipher :=
  let i : Byte := c.I + 1
  let j : Byte := c.J + tableGet c.T i
  { T := tableSwap c.T i j, I := i, J := j }

/-- The mask of an iteration, read after its swap: `T[(T[I] + T[J]) mod 256]` (41 R142). -/
def mask (c : Cipher) : Byte := tableGet c.T (tableGet c.T c.I + tableGet c.T c.J)

/-- The loop of XFORM over the data: the output bytes and the registers it leaves. -/
def xformLoop : Cipher → List Byte → List Byte × Cipher
  | c, [] => ([], c)
  | c, b :: rest =>
    let c' := xformStep c
    let r := xformLoop c' rest
    ((b ^^^ mask c') :: r.1, r.2)

/-- XFORM (41 R140): output of the same length as the data; the table is consumed (41 R144). -/
def xform (c : Cipher) (data : List Byte) : List Byte × Cipher := xformLoop (xformStart c) data

/-- The registers after `k` iterations of XFORM: they do not depend on the data (41 R143). -/
def xformAfter (c : Cipher) : Nat → Cipher
  | 0 => xformStart c
  | k + 1 => xformStep (xformAfter c k)

/-- CIPHER (41 R146): SCHED, which may raise InvalidKey; then XFORM on the input; the result as it stands. -/
def execCipher (s : State) : Host.Outcome State Fault Refusal :=
  s.withKeyAndInput fun key data =>
    match sched key with
    | .error k => .next (s.raise k)
    | .ok c => .next ((s.setCipher (xform c data).2).succeed (xform c data).1)

end Sys2Proof.Machine
end

