-- ==== Sys2Proof/Machine/SaltedPassword.lean ====
section
/-! DEFINITION. SaltedPassword: the micro-operation SALT (43 R180) and the commands ENCPW (43 R182) and DECPW (43 R185). -/

namespace Sys2Proof.Machine

/-- `n` salt characters, one draw each, in the order drawn, and the state once those draws are consumed (43 R180). -/
def drawSalt : Nat → State → List Byte × State
  | 0, s => ([], s)
  | n + 1, s => (alpha s.draw :: (drawSalt n s.afterDraw).1, (drawSalt n s.afterDraw).2)

/-- The first salt of SALT: 9 characters (43 R180). -/
def saltBefore (s : State) : List Byte × State := drawSalt Config.prefixLen s

/-- The second salt of SALT: 7 characters, drawn after the first salt (43 R180). -/
def saltAfter (s : State) : List Byte × State := drawSalt Config.suffixLen (saltBefore s).2

/-- The payload ENCPW enciphers: SALT's two salts around the password (43 R182 step 2). -/
def encpwPayload (s : State) (password : List Byte) : List Byte :=
  payload (saltBefore s).1 password (saltAfter s).1

/-- ENCPW (43 R182): SALT, payload, SCHED, XFORM, HexEnc, in that order, so that a faulting ENCPW has consumed its 16 draws
(43 R183). -/
def execEncpw (s : State) : Host.Outcome State Fault Refusal :=
  s.withKeyAndInput fun key password =>
    match sched key with
    | .error k => .next ((saltAfter s).2.raise k)
    | .ok c =>
      .next (((saltAfter s).2.setCipher (xform c (encpwPayload s password)).2).succeed
        (hexEnc (xform c (encpwPayload s password)).1))

/-- The bytes left of a deciphered payload once the first 9 and the last 7 are stripped (43 R185 step 3). -/
def stripSalts (pp : List Byte) : List Byte := (pp.drop Config.prefixLen).take (pp.length - Config.saltTotal)

/-- DECPW (43 R185): HexDec, SCHED, XFORM, length check, strip: the fault met first is the one reported (43 R186), and the
length check stands after XFORM (43 R187). -/
def execDecpw (s : State) : Host.Outcome State Fault Refusal :=
  s.withKeyAndInput fun key chars =>
    match hexDec chars with
    | .error k => .next (s.raise k)
    | .ok ct =>
      match sched key with
      | .error k => .next (s.raise k)
      | .ok c =>
        if ct.length < Config.saltTotal then .next ((s.setCipher (xform c ct).2).raise .payloadTooShort)
        else .next ((s.setCipher (xform c ct).2).succeed (stripSalts (xform c ct).1))

end Sys2Proof.Machine
end

