-- ==== Sys2Proof/Machine/Dispatch.lean ====
section
/-! DEFINITION. Dispatch: one arm per command, each one call of its meaning. -/

namespace Sys2Proof.Machine

def exec (i : Instr) (s : State) : Host.Outcome State Fault Refusal :=
  match i with
  | .hexenc => Sys2Proof.Machine.execHexenc s
  | .hexdec => Sys2Proof.Machine.execHexdec s
  | .encpw => Sys2Proof.Machine.execEncpw s
  | .decpw => Sys2Proof.Machine.execDecpw s
  | .cipher => Sys2Proof.Machine.execCipher s

end Sys2Proof.Machine
end

