-- ==== Sys2Proof/Machine/HostPort.lean ====
section
/-! DEFINITION. HostPort: the host's accesses (20 R60, R67), each one indivisible step. -/

namespace Sys2Proof.Machine

/-- `WR KEYBUF[x], v` (10 R34). -/
def writeKeyCell (x v : Nat) (s : State) : Host.Outcome State Fault Refusal :=
  if Config.keyMax ≤ x then .fault .noSuchLocation
  else if 256 ≤ v then .refused .outsideInterface
  else .next { s with keybuf := Memory.write s.keybuf x (BitVec.ofNat 8 v) }

/-- `WR INBUF[x], v` (10 R36). -/
def writeInCell (x v : Nat) (s : State) : Host.Outcome State Fault Refusal :=
  if Config.inMax ≤ x then .fault .noSuchLocation
  else if 256 ≤ v then .refused .outsideInterface
  else .next { s with inbuf := Memory.write s.inbuf x (BitVec.ofNat 8 v) }

/-- `WR KEYLEN, n` (10 R35): 0 is legal and means the empty key. -/
def writeKeylen (n : Nat) (s : State) : Host.Outcome State Fault Refusal :=
  if Config.keyMax < n then .refused .lengthAboveCapacity else .next { s with keylen := n }

/-- `WR INLEN, n` (10 R36). -/
def writeInlen (n : Nat) (s : State) : Host.Outcome State Fault Refusal :=
  if Config.inMax < n then .refused .lengthAboveCapacity else .next { s with inlen := n }

/-- Decode at the write (20 R75): a reserved code starts nothing and ends at once with IllegalCommand (30 R92, 60 R215); a
command whose input cells are not all defined is not launched (93 U5); any other is started (10 R39). -/
def launch (b : Byte) (s : State) : Host.Outcome State Fault Refusal :=
  match decodeByte b with
  | .error k => .next (s.raise k)
  | .ok i => if inputsDefined i s then .next (s.start b) else .refused .unwrittenInput

/-- `WR CMD, c` (10 R39): CMD is 8 bits wide. -/
def writeCmd (c : Nat) (s : State) : Host.Outcome State Fault Refusal :=
  if 256 ≤ c then .refused .outsideInterface else launch (BitVec.ofNat 8 c) s

/-- A write of register `number` (20 R67). -/
def writeReg (number value : Nat) (s : State) : Host.Outcome State Fault Refusal :=
  match number with
  | 0 => writeCmd value s
  | 1 => .refused .outsideInterface
  | 2 => writeKeylen value s
  | 3 => writeInlen value s
  | 4 => .refused .outsideInterface
  | _ => .fault .noSuchLocation

/-- A write, by space (20 R67): KEYBUF and INBUF are writable, OUTBUF is not, and nothing reaches T, I, J (10 R48). -/
def hostWrite (space : Space) (number value : Nat) (s : State) : Host.Outcome State Fault Refusal :=
  match space with
  | .reg => writeReg number value s
  | .keybuf => writeKeyCell number value s
  | .inbuf => writeInCell number value s
  | .outbuf => .refused .outsideInterface
  | .engine => .refused .outsideInterface

/-- `RD OUTBUF[x]` (10 R37): below OUTLEN the result's byte; at or above OUTLEN a free value, a fresh one on each read
(93 U4). -/
def readOutCell (x : Nat) (s : State) : Host.Outcome State Fault Refusal :=
  if Config.outMax ≤ x then .fault .noSuchLocation
  else
    match (if x < s.outlen then Memory.read s.outbuf x else none) with
    | some v => .next (s.returns (.byte v))
    | none => .next ({ s with free := s.free + 1 }.returns (.byte (Config.freeByte s.free)))

/-- A read of register `number` (20 R67): CMD cannot be read (10 R39). -/
def readReg (number : Nat) (s : State) : Host.Outcome State Fault Refusal :=
  match number with
  | 0 => .refused .outsideInterface
  | 1 => .next (s.returns (.byte s.status))
  | 2 => .next (s.returns (.length s.keylen))
  | 3 => .next (s.returns (.length s.inlen))
  | 4 => .next (s.returns (.length s.outlen))
  | _ => .fault .noSuchLocation

/-- A read, by space (20 R67): KEYBUF and INBUF cannot be read back, nothing reaches T, I, J (10 R48). -/
def hostRead (space : Space) (number : Nat) (s : State) : Host.Outcome State Fault Refusal :=
  match space with
  | .reg => readReg number s
  | .keybuf => .refused .outsideInterface
  | .inbuf => .refused .outsideInterface
  | .outbuf => readOutCell number s
  | .engine => .refused .outsideInterface

/-- `RD STATUS`, the one access allowed while BUSY = 1 (20 R60, R73). -/
def isStatusRead : Access → Bool
  | .rd .reg 1 => true
  | _ => false

/-- A host access (20 R60): while BUSY = 1 anything but RD STATUS is refused (20 R73). -/
def hostAccess (a : Access) (s : State) : Host.Outcome State Fault Refusal :=
  if busyBit s.status && !isStatusRead a then .refused .accessWhileBusy
  else
    match a with
    | .wr space number value => hostWrite space number value s
    | .rd space number => hostRead space number s

/-- The test bench puts values on the RND port (10 R46); 62 and 63 are no answer of the source (10 R45, 93 U8). -/
def sourceAnswers (draws : List (BitVec 6)) (s : State) : Host.Outcome State Fault Refusal :=
  if draws.all fun d => decide (d.toNat < 62) then
    .next { s with rndQueue := s.rndQueue ++ draws.filterMap fun d => if h : d.toNat < 62 then some ⟨d.toNat, h⟩ else none }
  else .refused .drawOutOfRange

end Sys2Proof.Machine
end

