-- ==== Sys2Proof/Machine/Turn.lean ====
section
/-! DEFINITION. Turn: the engine's turn, and what each event does. -/

namespace Sys2Proof.Machine

/-- The engine's turn: a command in flight is read from its byte and run to its end as one atomic transition (20 R70); with
none in flight the engine is idle and executes nothing (70 R241). A reserved byte in flight, which WR CMD never leaves there,
ends as at the write (30 R92). -/
def engineTurn (s : State) : Host.Outcome State Fault Refusal :=
  match s.command with
  | none => .next s
  | some b =>
    match decodeByte b with
    | .ok i => exec i { s with command := none }
    | .error k => .next ({ s with command := none }.raise k)

/-- An ENCPW in flight may have taken any number of its 16 draws before its end (70 R242); any other engine takes none
(70 R245). -/
def engineDraw (s : State) : Host.Outcome State Fault Refusal :=
  if s.command = some (encode .encpw) ∧ s.taken.length < Config.saltTotal then .next s.takeDraw else .next s

/-- What an event does. -/
def event (e : Event) (s : State) : Host.Outcome State Fault Refusal :=
  match e with
  | .host a => hostAccess a s
  | .engine => engineTurn s
  | .draw => engineDraw s
  | .reset => .next s.applyReset
  | .source draws => sourceAnswers draws s

/-- The next event to come, taken off the list; with none to come the engine has the turn, so that a started command ends
(70 R258). -/
def nextEvent (s : State) : Host.Outcome State Fault Refusal :=
  match s.script with
  | [] => engineTurn s
  | e :: rest => event e { s with script := rest }

/-- The state in which the command byte `b` is in flight and the engine has the next turn: as WR CMD leaves it (10 R39). -/
def placeCommand (b : Byte) (s : State) : State := { s.start b with script := .engine :: s.script }

end Sys2Proof.Machine
end

