-- ==== Sys2Proof/Machine/Step.lean ====
section
/-! DEFINITION. Step: one step of the machine. -/

namespace Sys2Proof.Machine

/-- One step: the next event, or the engine's turn when no event is to come. -/
def step (s : State) : Host.Outcome State Fault Refusal := nextEvent s

/-- `s` with the one-byte command `w` in flight, its byte where the engine's turn reads it, and that turn next. -/
def State.withFetchWord (s : State) (nbits w : Nat) : State := placeCommand (BitVec.ofNat 8 (w % 2 ^ nbits)) s

end Sys2Proof.Machine
end

