-- ==== Sys2Proof/Safety.lean ====
section
/-! DEFINITION. Safety: the terms the claims are stated in: what a buffer cell holds, which inputs are written, what a command
leaves alone, the invariants of the machine, and which events the spec allows in a state. -/

namespace Sys2Proof.Machine

/-- `INBUF[k]`, for a cell that holds a value. -/
def inByte (s : State) (k : Nat) : Byte := (Memory.read s.inbuf k).getD 0

/-- `KEYBUF[k]`, for a cell that holds a value. -/
def keyCell (s : State) (k : Nat) : Byte := (Memory.read s.keybuf k).getD 0

/-- `KEYBUF[0 .. KEYLEN-1]`, for a key whose cells hold values. -/
def keyBytes (s : State) : List Byte := (List.range s.keylen).map (keyCell s)

/-- Every INBUF cell below INLEN holds a value (70 R244). -/
def InputWritten (s : State) : Prop := ∀ k, k < s.inlen → (Memory.read s.inbuf k).isSome = true

/-- Every KEYBUF cell below KEYLEN holds a value (70 R244). -/
def KeyWritten (s : State) : Prop := ∀ k, k < s.keylen → (Memory.read s.keybuf k).isSome = true

/-- The `m`th of the draws SALT uses next, counted from 0: those taken already, then what the test bench queued, then free
values. -/
def drawAt (s : State) (m : Nat) : Fin 62 :=
  (s.taken ++ s.rndQueue).getD m (Config.draw (s.drawn + (m - s.taken.length)))

/-- `m_k`, the mask of position `k` under a key (41 R142, R143). -/
def maskByte (key : List Byte) (k : Nat) : Byte := mask (xformAfter (schedAfter key 256) (k + 1))

/-- Every character of the input is a hex digit (30 R98). -/
def AllHex (s : State) : Prop := ∀ k, k < s.inlen → (hexValue (inByte s k)).isSome = true

/-- Byte `k` of the input read as a hex string (42 R162). -/
def hexByteAt (s : State) (k : Nat) : Byte :=
  byteOfDigits ((hexValue (inByte s (2 * k))).getD 0) ((hexValue (inByte s (2 * k + 1))).getD 0)

/-- Byte `k` of the payload of ENCPW (30 R101): 9 salt characters, the password, 7 salt characters. -/
def payloadByte (s : State) (k : Nat) : Byte :=
  if k < 9 then alpha (drawAt s k)
  else if k < 9 + s.inlen then inByte s (k - 9)
  else alpha (drawAt s (k - s.inlen))

/-- `t` holds each of the 256 byte values in exactly one cell (10 R32). -/
def IsPermutation (t : Table) : Prop := ∀ v : Byte, ∃! x : Byte, tableGet t x = v

/-- A hex digit in upper case; any other character unchanged (42 R165). -/
def upperHex (c : Byte) : Byte := if 0x61 ≤ c.toNat ∧ c.toNat ≤ 0x66 then c - 0x20 else c

/-- `u` holds, as its input, what `t` holds as its result: what OUT2IN leaves (30 R105). -/
def CopiedBack (t u : State) : Prop :=
  u.inlen = t.outlen ∧ ∀ x, x < t.outlen → Memory.read u.inbuf x = Memory.read t.outbuf x

/-- `s` and `u` hold the same key (40 R124). -/
def SameKey (s u : State) : Prop :=
  u.keylen = s.keylen ∧ ∀ x, x < s.keylen → Memory.read u.keybuf x = Memory.read s.keybuf x

/-- `s` and `u` hold the same input. -/
def SameInput (s u : State) : Prop :=
  u.inlen = s.inlen ∧ ∀ x, x < s.inlen → Memory.read u.inbuf x = Memory.read s.inbuf x

/-- What every command leaves alone, from `s` to `t`: each byte of KEYBUF and of INBUF, both input lengths (10 R51), what the
host last read, the events to come and the free values. OUTBUF, OUTLEN and STATUS are the command's result. -/
structure CommandFrame (s t : State) : Prop where
  keybuf : ∀ a, Memory.read t.keybuf a = Memory.read s.keybuf a
  keylen : t.keylen = s.keylen
  inbuf : ∀ a, Memory.read t.inbuf a = Memory.read s.inbuf a
  inlen : t.inlen = s.inlen
  readData : t.readData = s.readData
  command : t.command = s.command
  script : t.script = s.script
  free : t.free = s.free

/-- The values STATUS can hold (10 R41). -/
def statusReachable : List Byte := [0x00, 0x01, 0x02, 0x16, 0x26, 0x36, 0x46]

/-- The buffers and their lengths: canonical lists, cells and lengths within the capacities (10 R35 to R38), and OUTBUF defined
exactly below OUTLEN (10 R37). -/
structure BufferInv (s : State) : Prop where
  keybuf_wf : Memory.wf s.keybuf
  keybuf_room : ∀ c ∈ s.keybuf, c.1 < Config.keyMax
  keylen_le : s.keylen ≤ Config.keyMax
  inbuf_wf : Memory.wf s.inbuf
  inbuf_room : ∀ c ∈ s.inbuf, c.1 < Config.inMax
  inlen_le : s.inlen ≤ Config.inMax
  outbuf_wf : Memory.wf s.outbuf
  outbuf_defined : ∀ x, (Memory.read s.outbuf x).isSome = decide (x < s.outlen)
  outlen_le : s.outlen ≤ Config.outMax

/-- STATUS and the command in flight: STATUS holds a value of 10 R41, BUSY = 1 exactly while a command is in flight, and that
command is one that WR CMD launches (30 R92, 93 U5). At most 16 draws have been taken ahead, by an ENCPW in flight only. -/
structure ControlInv (s : State) : Prop where
  status_reachable : s.status ∈ statusReachable
  busy_iff : busyBit s.status = s.command.isSome
  launched : ∀ b, s.command = some b → ∃ i, decodeByte b = .ok i ∧ inputsDefined i s = true
  taken_le : s.taken.length ≤ 16
  taken_by_encpw : s.taken ≠ [] → s.command = some (encode .encpw)

/-- Which host accesses the spec allows, line by line of the table of 20 R60, with the launch premise of 93 U5. -/
def accessAllowed (a : Access) (s : State) : Bool :=
  match a with
  | .wr .keybuf x v => !busyBit s.status && decide (x < Config.keyMax) && decide (v < 256)
  | .wr .reg 2 n => !busyBit s.status && decide (n ≤ Config.keyMax)
  | .wr .inbuf x v => !busyBit s.status && decide (x < Config.inMax) && decide (v < 256)
  | .wr .reg 3 n => !busyBit s.status && decide (n ≤ Config.inMax)
  | .wr .reg 0 c =>
    !busyBit s.status && decide (c < 256) &&
      (match decodeByte (BitVec.ofNat 8 c) with
       | .ok i => inputsDefined i s
       | .error _ => true)
  | .rd .reg 1 => true
  | .rd .reg 2 => !busyBit s.status
  | .rd .reg 3 => !busyBit s.status
  | .rd .reg 4 => !busyBit s.status
  | .rd .outbuf x => !busyBit s.status && decide (x < Config.outMax)
  | _ => false

/-- Which events can happen in a state: an allowed access, the engine's turn, a draw of the engine, the reset
input, answers of the source in 0..61. -/
def eventAllowed (e : Event) (s : State) : Bool :=
  match e with
  | .host a => accessAllowed a s
  | .engine => true
  | .draw => true
  | .reset => true
  | .source draws => draws.all fun d => decide (d.toNat < 62)

/-- The event is a write of CMD. -/
def isCmdWrite : Event → Bool
  | .host (.wr .reg 0 _) => true
  | _ => false

/-- The step to come is the engine's turn. -/
def EngineNext (s : State) : Prop := s.script = [] ∨ ∃ rest, s.script = .engine :: rest

end Sys2Proof.Machine
end

