-- ==== Sys2Proof/Certificates/Slice0/Obligations.lean ====
section
/-! DEFINITION. Obligations: what the provers are asked to prove about the model, from the numbered rules of spec/. -/

open Sys2Proof Sys2Proof.Machine

/-! ## Encoding -/

/-- The five words written out from spec/opcode_table.json, and the codes of 30 R91. -/
def Obligations.CommandWordsDecode : Prop :=
  decodeTableWord 8 0b00000001 = some .hexenc ∧ decodeTableWord 8 0b00000010 = some .hexdec ∧
  decodeTableWord 8 0b00000011 = some .encpw ∧ decodeTableWord 8 0b00000100 = some .decpw ∧
  decodeTableWord 8 0b00000101 = some .cipher

/-- Decode and encode agree in both directions (30 R91, R94): no byte but its code selects a command. -/
def Obligations.DecodeEncodeAgree : Prop :=
  (∀ i : Instr, i.wf = true → decodeByte (encode i) = .ok i) ∧
  ∀ (b : Byte) (i : Instr), decodeByte b = .ok i → encode i = b

/-- 30 R92: 0x00 and 0x06 .. 0xFF, all alike, select no command; a write of one to CMD, by an idle engine, starts nothing and
ends at once with IllegalCommand: STATUS 0x46, OUTLEN 0, no draw taken, nothing put in flight, T, I, J and every input
untouched (60 R215). -/
def Obligations.ReservedCodesFault : Prop :=
  ∀ b : Byte, (b = 0x00 ∨ 0x06 ≤ b.toNat) →
    decodeByte b = .error .illegalCommand ∧
    ∀ s : State, busyBit s.status = false →
      ∃ t, hostAccess (.wr .reg 0 b.toNat) s = .next t ∧ t.status = 0x46 ∧ t.outlen = 0 ∧ t.cipher = s.cipher ∧
        t.rndQueue = s.rndQueue ∧ t.drawn = s.drawn ∧ t.taken = s.taken ∧ CommandFrame s t

/-! ## How a command comes to run -/

/-- 10 R39: WR CMD of a command's code by an idle engine whose input cells are defined sets STATUS to BUSY=1, DONE=0, ERR=0,
KIND=0, clearing the previous outcome, and leaves that command in flight with no draw taken yet; nothing else changes. The byte
in flight and the draws taken ahead are the model's choice (log 5, 14). -/
def Obligations.WriteCmdStartsCommand : Prop :=
  ∀ (i : Instr) (s : State), busyBit s.status = false → InputWritten s → (usesKey i = true → KeyWritten s) →
    hostAccess (.wr .reg 0 (encode i).toNat) s = .next { s with status := 0x01, command := some (encode i), taken := [] }

/-- When the byte in flight decodes to a command and the engine has the turn, the step is that command's own transition, on the
state with the byte no longer in flight and the turn's event taken off. That a command is one transition is 20 R70; the byte in
flight and the list of events are the model's choice (log 5, 6). -/
def Obligations.StepRunsDecodedCommand : Prop :=
  ∀ (s : State) (b : Byte) (i : Instr), s.command = some b → decodeByte b = .ok i → EngineNext s →
    step s = exec i { s with command := none, script := s.script.tail }

/-- The word placed by `withFetchWord` is run by the very next step, on the state it was placed in, with BUSY = 1 and no draw taken yet. Where the word
is placed is the model's choice (log 6). -/
def Obligations.StepRunsPlacedWord : Prop :=
  ∀ (s : State) (w : Nat) (i : Instr), decodeTableWord 8 w = some i →
    step (s.withFetchWord 8 w) = exec i { s with status := 0x01, command := none, taken := [] }

/-- 70 R241: with no command in flight the engine executes nothing; the state after reset stays as it is. That an idle machine
with no event to come takes a step that changes nothing is the model's choice (log 6). -/
def Obligations.IdleEngineExecutesNothing : Prop :=
  (∀ s : State, s.command = none → s.script = [] → step s = .next s) ∧ step State.reset = .next State.reset

/-- 70 R258: a command in flight ends in the engine's turn: DONE = 1, BUSY = 0, nothing in flight. The turn is the model's choice
(log 5). -/
def Obligations.StartedCommandEnds : Prop :=
  ∀ s : State, ControlInv s → busyBit s.status = true → EngineNext s →
    ∃ t, step s = .next t ∧ busyBit t.status = false ∧ doneBit t.status = true ∧ t.command = none

/-! ## STATUS and the two outcomes -/

/-- 10 R40, R41, 30 R95: the fields of the STATUS values. -/
def Obligations.StatusFields : Prop :=
  statusBusy = 0x01 ∧ statusSuccess = 0x02 ∧ statusFault .invalidKey = 0x16 ∧ statusFault .malformedHex = 0x26 ∧
  statusFault .payloadTooShort = 0x36 ∧ statusFault .illegalCommand = 0x46 ∧
  (∀ st ∈ statusReachable,
    (busyBit st = true → doneBit st = false ∧ errBit st = false) ∧
    (errBit st = true → doneBit st = true ∧ kindField st ≠ 0) ∧ (errBit st = false → kindField st = 0) ∧
    st.getLsbD 3 = false ∧ st.getLsbD 7 = false) ∧
  ∀ k : FaultKind, kindField (statusFault k) = kindCode k

/-- 60 R216: what `raise K` does. -/
def Obligations.FaultEntryReportsKind : Prop :=
  ∀ (s : State) (k : FaultKind),
    (s.raise k).outlen = 0 ∧ busyBit (s.raise k).status = false ∧ doneBit (s.raise k).status = true ∧
    errBit (s.raise k).status = true ∧ kindField (s.raise k).status = kindCode k ∧
    (s.raise k).status ∈ [0x16, 0x26, 0x36, 0x46] ∧ (s.raise k).keybuf = s.keybuf ∧ (s.raise k).keylen = s.keylen ∧
    (s.raise k).inbuf = s.inbuf ∧ (s.raise k).inlen = s.inlen

/-- 00 R12, 60 R217: a command ends in exactly one of two ways: success, with every byte below OUTLEN defined, or one fault,
with OUTLEN = 0. -/
def Obligations.CommandHasOneOfTwoOutcomes : Prop :=
  ∀ (i : Instr) (s t : State), exec i s = .next t →
    (t.status = 0x02 ∧ ∀ x, x < t.outlen → (Memory.read t.outbuf x).isSome = true) ∨
    (t.status ∈ [0x16, 0x26, 0x36] ∧ t.outlen = 0)

/-- A command's transition happens exactly when every cell it requires holds a value (10 R50, 93 U5); otherwise it is refused
by that name, and it never stops with a machine fault. That the transition itself refuses, beside WR CMD, is the model's choice
(log 5). -/
def Obligations.CommandRunsExactlyOnWrittenInput : Prop :=
  ∀ (i : Instr) (s : State),
    ((InputWritten s ∧ (usesKey i = true → KeyWritten s)) → ∃ t, exec i s = .next t) ∧
    (¬ (InputWritten s ∧ (usesKey i = true → KeyWritten s)) → exec i s = .refused .unwrittenInput)

/-- 60 R221, the table whole: which command can raise which kind. -/
def Obligations.WhichCommandRaisesWhichKind : Prop :=
  (∀ s t, exec .hexenc s = .next t → t.status = 0x02) ∧
  (∀ s t, exec .hexdec s = .next t → t.status ∈ [0x02, 0x26]) ∧
  (∀ s t, exec .encpw s = .next t → t.status ∈ [0x02, 0x16]) ∧
  (∀ s t, exec .decpw s = .next t → t.status ∈ [0x02, 0x16, 0x26, 0x36]) ∧
  (∀ s t, exec .cipher s = .next t → t.status ∈ [0x02, 0x16]) ∧
  (∃ s t, exec .hexdec s = .next t ∧ t.status = 0x26) ∧ (∃ s t, exec .encpw s = .next t ∧ t.status = 0x16) ∧
  (∃ s t, exec .decpw s = .next t ∧ t.status = 0x16) ∧ (∃ s t, exec .decpw s = .next t ∧ t.status = 0x26) ∧
  (∃ s t, exec .decpw s = .next t ∧ t.status = 0x36) ∧ (∃ s t, exec .cipher s = .next t ∧ t.status = 0x16) ∧
  ∀ (b : Byte) (s t : State), (∀ i, decodeByte b ≠ .ok i) → busyBit s.status = false →
    hostAccess (.wr .reg 0 b.toNat) s = .next t → t.status = 0x46

/-- 30 R106, the table whole: OUTLEN on success and the faults on length, with n = INLEN; HEXENC, ENCPW and CIPHER have none, so
with a key (HEXENC: always) they succeed at every length. -/
def Obligations.LengthRelations : Prop :=
  (∀ s t, exec .hexenc s = .next t → errBit t.status = false ∧ t.outlen = 2 * s.inlen) ∧
  (∀ s t, exec .hexdec s = .next t →
    (errBit t.status = false → s.inlen % 2 = 0 ∧ t.outlen = s.inlen / 2) ∧ (s.inlen % 2 = 1 → t.status = 0x26)) ∧
  (∀ s t, exec .encpw s = .next t →
    (errBit t.status = false → t.outlen = 2 * s.inlen + 32) ∧ (s.keylen ≠ 0 → errBit t.status = false)) ∧
  (∀ s t, exec .decpw s = .next t →
    (errBit t.status = false → s.inlen % 2 = 0 ∧ 16 ≤ s.inlen / 2 ∧ t.outlen = s.inlen / 2 - 16) ∧
    (s.inlen % 2 = 1 → t.status = 0x26) ∧
    (s.inlen % 2 = 0 → s.inlen / 2 < 16 → AllHex s → s.keylen ≠ 0 → t.status = 0x36)) ∧
  ∀ s t, exec .cipher s = .next t →
    (errBit t.status = false → t.outlen = s.inlen) ∧ (s.keylen ≠ 0 → errBit t.status = false)

/-- 60 R219: re-issuing a faulting command with unchanged KEYBUF, KEYLEN, INBUF and INLEN faults again with the same kind. -/
def Obligations.RetryFaultsAgain : Prop :=
  ∀ (i : Instr) (s t u : State), exec i s = .next t → errBit t.status = true → SameKey s u → SameInput s u →
    ∃ v, exec i u = .next v ∧ v.status = t.status

/-! ## Frames -/

/-- 10 R51: no command, successful or faulting, changes KEYBUF, KEYLEN, INBUF or INLEN. -/
def Obligations.CommandsPreserveInputs : Prop :=
  ∀ (i : Instr) (s t : State), exec i s = .next t →
    (∀ a, Memory.read t.keybuf a = Memory.read s.keybuf a) ∧ t.keylen = s.keylen ∧
    (∀ a, Memory.read t.inbuf a = Memory.read s.inbuf a) ∧ t.inlen = s.inlen

/-- HEXENC and HEXDEC: no draw is taken (42 R166), and T, I and J are untouched. That T, I and J keep their values past such a
command, a faulting HEXDEC included, is the model's choice (log 10): the spec leaves them unspecified after any command (10 R44,
60 R216, 93 U3) and lets a model erase them. The bytes stored are OUTBUF[0 .. OUTLEN-1]; the other OUTBUF cells are unspecified after any command (10 R37,
60 R216), so no claim is made of them. -/
def Obligations.HexCommandsFrame : Prop :=
  ∀ (i : Instr) (s t : State), (i = .hexenc ∨ i = .hexdec) → exec i s = .next t →
    CommandFrame s t ∧ t.cipher = s.cipher ∧ t.rndQueue = s.rndQueue ∧ t.drawn = s.drawn ∧ t.taken = s.taken

/-- CIPHER and DECPW: no draw is taken (41 R147, 43 R185). T, I and J are what SCHED and XFORM write, unspecified after the
command (10 R44); the bytes stored are OUTBUF[0 .. OUTLEN-1], the other OUTBUF cells unspecified (10 R37). -/
def Obligations.CipherAndDecpwFrame : Prop :=
  ∀ (i : Instr) (s t : State), (i = .cipher ∨ i = .decpw) → exec i s = .next t →
    CommandFrame s t ∧ t.rndQueue = s.rndQueue ∧ t.drawn = s.drawn ∧ t.taken = s.taken

/-- ENCPW: exactly 16 draws are used, by a faulting one too (43 R183): those taken ahead first, the rest from the port; otherwise
as for CIPHER. That some may have been taken ahead is the model's choice (log 14). -/
def Obligations.EncpwFrame : Prop :=
  ∀ s t : State, exec .encpw s = .next t →
    CommandFrame s t ∧ t.taken = s.taken.drop 16 ∧ t.rndQueue = s.rndQueue.drop (16 - s.taken.length) ∧
    t.drawn = s.drawn + (16 - s.taken.length)

/-- 20 R79 (e), 10 R42, R44: a command's outcome is a function of its input, of its key if it uses one, and for ENCPW of its 16
draws, and of nothing else: not of T, I, J, OUTBUF, OUTLEN or STATUS as an earlier command left them. -/
def Obligations.OutcomeDependsOnOperandsOnly : Prop :=
  ∀ (i : Instr) (s u t : State), SameInput s u → (usesKey i = true → SameKey s u) →
    (i = .encpw → ∀ m, m < 16 → drawAt u m = drawAt s m) → exec i s = .next t →
    ∃ v, exec i u = .next v ∧ v.status = t.status ∧ v.outlen = t.outlen ∧ v.outbuf = t.outbuf

/-! ## HexCodec -/

/-- 30 R98, the table whole. -/
def Obligations.HexValueTable : Prop :=
  ∀ c : Byte,
    (0x30 ≤ c.toNat → c.toNat ≤ 0x39 → hexValue c = some (c.toNat - 0x30)) ∧
    (0x41 ≤ c.toNat → c.toNat ≤ 0x46 → hexValue c = some (c.toNat - 0x37)) ∧
    (0x61 ≤ c.toNat → c.toNat ≤ 0x66 → hexValue c = some (c.toNat - 0x57)) ∧
    (¬ (0x30 ≤ c.toNat ∧ c.toNat ≤ 0x39) → ¬ (0x41 ≤ c.toNat ∧ c.toNat ≤ 0x46) →
      ¬ (0x61 ≤ c.toNat ∧ c.toNat ≤ 0x66) → hexValue c = none)

/-- 42 R160, R161: HEXENC succeeds on every input, whatever the key, with two upper-case digits a byte, the high nibble
first. -/
def Obligations.HexencWritesHexString : Prop :=
  ∀ s : State, InputWritten s →
    ∃ t, exec .hexenc s = .next t ∧ t.status = 0x02 ∧ t.outlen = 2 * s.inlen ∧
      ∀ k, k < s.inlen →
        Memory.read t.outbuf (2 * k) = some (hexDigit ((inByte s k).toNat / 16)) ∧
        Memory.read t.outbuf (2 * k + 1) = some (hexDigit ((inByte s k).toNat % 16))

/-- 42 R162, R163: HEXDEC of an even number of hex digits succeeds, byte `k` being `16 * hi + lo` of characters `2k` and
`2k+1`. -/
def Obligations.HexdecWritesBytes : Prop :=
  ∀ s : State, InputWritten s → s.inlen % 2 = 0 → AllHex s →
    ∃ t, exec .hexdec s = .next t ∧ t.status = 0x02 ∧ t.outlen = s.inlen / 2 ∧
      ∀ k, k < s.inlen / 2 → ∃ hi lo, hexValue (inByte s (2 * k)) = some hi ∧ hexValue (inByte s (2 * k + 1)) = some lo ∧
        Memory.read t.outbuf k = some (BitVec.ofNat 8 (16 * hi + lo))

/-- 42 R162, R163, 60 R217: HEXDEC of an odd length, or with one character that is no hex digit, raises MalformedHex for the
whole input: no byte of it is delivered. -/
def Obligations.HexdecRaisesMalformedHex : Prop :=
  ∀ s : State, InputWritten s → (s.inlen % 2 = 1 ∨ ¬ AllHex s) →
    ∃ t, exec .hexdec s = .next t ∧ t.status = 0x26 ∧ t.outlen = 0

/-- 42 R164: `hexDecode(hexEncode(b)) == b`, of the functions and of the commands. -/
def Obligations.HexRoundTrip : Prop :=
  (∀ b : List Byte, hexDec (hexEnc b) = .ok b) ∧
  ∀ s t u : State, InputWritten s → exec .hexenc s = .next t → CopiedBack t u →
    ∃ v, exec .hexdec u = .next v ∧ v.status = 0x02 ∧ v.outlen = s.inlen ∧
      ∀ x, x < s.inlen → Memory.read v.outbuf x = Memory.read s.inbuf x

/-- 42 R165: `encode(decode(s))` is `s` with `'a'..'f'` replaced by `'A'..'F'`; it is `s` when `s` has no lower-case digit. -/
def Obligations.HexCaseNormalisation : Prop :=
  ∀ s b : List Byte, hexDec s = .ok b →
    hexEnc b = s.map upperHex ∧
    ((∀ c ∈ s, ¬ (0x61 ≤ c.toNat ∧ c.toNat ≤ 0x66)) → hexEnc b = s)

/-- 30 R99, 42 R161, 43 R184: what the engine emits as hex has even length and only the characters 0-9 and A-F. -/
def Obligations.HexOutputIsUpperCase : Prop :=
  ∀ (i : Instr) (s t : State), (i = .hexenc ∨ i = .encpw) → exec i s = .next t →
    t.outlen % 2 = 0 ∧ ∀ x, x < t.outlen → ∃ c, Memory.read t.outbuf x = some c ∧ c ∈ ascii "0123456789ABCDEF"

/-! ## KeyScheduler -/

/-- 40 R121: SCHED raises InvalidKey for the empty key and for no other key, before it writes T, I or J. That T, I and J still hold
their old values once the faulting command has ended is the model's choice (log 10): the spec leaves them unspecified after any
command (10 R44, 60 R216, 93 U3). -/
def Obligations.SchedRejectsOnlyEmptyKey : Prop :=
  (∀ key : List Byte, sched key = .error .invalidKey ↔ key.length = 0) ∧
  (∀ key : List Byte, key.length ≠ 0 → ∃ c, sched key = .ok c) ∧
  ∀ (i : Instr) (s t : State), usesKey i = true → s.keylen = 0 → exec i s = .next t → t.cipher = s.cipher

/-- 40 R122, R123: SCHED starts from the identity table with J = 0, and its iteration I = n updates J from its old value, the
key byte at `I mod KEYLEN` and the current T[I], then exchanges T[I] and T[J]; it makes 256 iterations. -/
def Obligations.SchedIteratesAsStated : Prop :=
  (∀ (key : List Byte) (x : Byte), tableGet (schedAfter key 0).T x = x ∧ (schedAfter key 0).J = 0) ∧
  (∀ (key : List Byte) (n : Nat) (i : Byte), 1 ≤ key.length → i.toNat = n →
    (schedAfter key (n + 1)).I = i ∧
    (∃ h : n % key.length < key.length,
      (schedAfter key (n + 1)).J.toNat =
        ((schedAfter key n).J.toNat + (key[n % key.length]).toNat + (tableGet (schedAfter key n).T i).toNat) % 256) ∧
    ∀ x : Byte, tableGet (schedAfter key (n + 1)).T x =
      if x = i then tableGet (schedAfter key n).T (schedAfter key (n + 1)).J
      else if x = (schedAfter key (n + 1)).J then tableGet (schedAfter key n).T i
      else tableGet (schedAfter key n).T x) ∧
  ∀ key : List Byte, 1 ≤ key.length → sched key = .ok (schedAfter key 256)

/-- 40 R124: after SCHED succeeds, T holds every value exactly once, and the same KEYLEN and key bytes leave the same table.
T is a permutation at every point in between too, after any number of iterations of SCHED and then of XFORM (10 R32). -/
def Obligations.TableIsPermutation : Prop :=
  (∀ (key : List Byte) (c : Cipher), sched key = .ok c → IsPermutation c.T) ∧
  (∀ (s u : State) (key key' : List Byte), SameKey s u → s.key = some key → u.key = some key' → sched key = sched key') ∧
  ∀ (key : List Byte) (n k : Nat),
    IsPermutation (schedAfter key n).T ∧ IsPermutation (xformAfter (schedAfter key n) k).T

/-- 40 R125: key bytes from index 256 up are never read, a key repeated a whole number of times gives the same table, and every
byte of a key of at most 256 bytes is read. -/
def Obligations.SchedKeyBytesThatMatter : Prop :=
  (∀ key key' : List Byte, 256 ≤ key.length → 256 ≤ key'.length → key.take 256 = key'.take 256 → sched key = sched key') ∧
  (∀ (key : List Byte) (m : Nat), 1 ≤ m → sched (List.replicate m key).flatten = sched key) ∧
  ∀ (key : List Byte) (x : Nat), key.length ≤ 256 → x < key.length → ∃ i, i < 256 ∧ i % key.length = x

/-! ## KeystreamCipher -/

/-- 41 R141, R142: XFORM starts with I = J = 0 on the table as it finds it; an iteration increments I, adds the T[I] found there
to J, exchanges T[I] and T[J], and takes the mask at `T[I] + T[J]` after the exchange; output byte `k` is input byte `k` XOR the
mask of iteration `k`, and XFORM makes one iteration a byte. -/
def Obligations.XformIteratesAsStated : Prop :=
  (∀ c : Cipher, (xformAfter c 0).I = 0 ∧ (xformAfter c 0).J = 0 ∧ (xformAfter c 0).T = c.T) ∧
  (∀ (c : Cipher) (k : Nat),
    (xformAfter c (k + 1)).I.toNat = ((xformAfter c k).I.toNat + 1) % 256 ∧
    (xformAfter c (k + 1)).J.toNat =
      ((xformAfter c k).J.toNat + (tableGet (xformAfter c k).T (xformAfter c (k + 1)).I).toNat) % 256 ∧
    (∀ x : Byte, tableGet (xformAfter c (k + 1)).T x =
      if x = (xformAfter c (k + 1)).I then tableGet (xformAfter c k).T (xformAfter c (k + 1)).J
      else if x = (xformAfter c (k + 1)).J then tableGet (xformAfter c k).T (xformAfter c (k + 1)).I
      else tableGet (xformAfter c k).T x) ∧
    ∃ q : Byte,
      q.toNat = ((tableGet (xformAfter c (k + 1)).T (xformAfter c (k + 1)).I).toNat +
        (tableGet (xformAfter c (k + 1)).T (xformAfter c (k + 1)).J).toNat) % 256 ∧
      mask (xformAfter c (k + 1)) = tableGet (xformAfter c (k + 1)).T q) ∧
  ∀ (c : Cipher) (data : List Byte),
    (xform c data).1.length = data.length ∧ (xform c data).2 = xformAfter c data.length ∧
    ∀ k, (xform c data).1[k]? = data[k]?.map (· ^^^ mask (xformAfter c (k + 1)))

/-- 41 R143: the masks do not depend on the data. From one table, at a position two inputs share, input byte XOR output byte is
the same for both; inputs that agree on their first `n` bytes give outputs that agree there; and equal lengths leave equal
registers. -/
def Obligations.XformMaskIgnoresData : Prop :=
  ∀ (c : Cipher) (d e : List Byte),
    (∀ (k : Nat) (b b' o o' : Byte), d[k]? = some b → e[k]? = some b' → (xform c d).1[k]? = some o → (xform c e).1[k]? = some o' →
      b ^^^ o = b' ^^^ o') ∧
    (∀ n, d.take n = e.take n → (xform c d).1.take n = (xform c e).1.take n) ∧
    (d.length = e.length → (xform c d).2 = (xform c e).2)

/-- 41 R145: with SCHED of the same key run before each, XFORM twice is the identity. -/
def Obligations.XformSelfInverse : Prop :=
  ∀ (key : List Byte) (c c' : Cipher) (d : List Byte), sched key = .ok c → sched key = .ok c' →
    (xform c' (xform c d).1).1 = d

/-- 41 R146: CIPHER with a non-empty key writes the input XOR the masks of the freshly scheduled table. -/
def Obligations.CipherWritesMaskedInput : Prop :=
  ∀ s : State, KeyWritten s → InputWritten s → 1 ≤ s.keylen →
    ∃ t, exec .cipher s = .next t ∧ t.status = 0x02 ∧ t.outlen = s.inlen ∧
      ∀ k, k < s.inlen → Memory.read t.outbuf k = some (inByte s k ^^^ maskByte (keyBytes s) k)

/-- 41 R145, R147: CIPHER of CIPHER's own output under the same key returns the input. -/
def Obligations.CipherTwiceIsIdentity : Prop :=
  ∀ s t u : State, KeyWritten s → InputWritten s → 1 ≤ s.keylen → exec .cipher s = .next t → CopiedBack t u → SameKey s u →
    ∃ v, exec .cipher u = .next v ∧ v.status = 0x02 ∧ v.outlen = s.inlen ∧
      ∀ x, x < s.inlen → Memory.read v.outbuf x = Memory.read s.inbuf x

/-- 60 R211, 41 R146, 43 R183: with KEYLEN = 0, CIPHER and ENCPW raise InvalidKey, whatever the input. -/
def Obligations.EmptyKeyRaisesInvalidKey : Prop :=
  ∀ (i : Instr) (s : State), (i = .cipher ∨ i = .encpw) → InputWritten s → s.keylen = 0 →
    ∃ t, exec i s = .next t ∧ t.status = 0x16 ∧ t.outlen = 0

/-! ## SaltedPasswordCodec -/

/-- 30 R97, R100: `HexDigit(n)` is character `n` of the 16 digits, and `ALPHA[r]` is character `r` of the 62 salt characters. -/
def Obligations.DigitAndAlphabetTables : Prop :=
  (∀ n, n ≤ 15 → some (hexDigit n) = (ascii "0123456789ABCDEF")[n]?) ∧
  ∀ r : Fin 62, some (alpha r) = (ascii "0123456789ABCDEFGHIJKLMNOPQRSTUVWXYZabcdefghijklmnopqrstuvwxyz")[r.val]?

/-- 43 R180, R181: SALT takes 16 draws, one a character, the 9 of the first salt before the 7 of the second, and changes nothing
but the RND port and the draws taken ahead (the model's choice, log 14), which it uses first; every salt byte is a 7-bit code in 0x30..0x7A. -/
def Obligations.SaltTakesSixteenDraws : Prop :=
  ∀ s : State,
    (saltBefore s).1 = (List.range 9).map (fun m => alpha (drawAt s m)) ∧
    (saltAfter s).1 = (List.range 7).map (fun m => alpha (drawAt s (9 + m))) ∧
    (saltAfter s).2 =
      { s with
        taken := s.taken.drop 16
        rndQueue := s.rndQueue.drop (16 - s.taken.length)
        drawn := s.drawn + (16 - s.taken.length) } ∧
    ∀ c ∈ (saltBefore s).1 ++ (saltAfter s).1, 0x30 ≤ c.toNat ∧ c.toNat ≤ 0x7A

/-- 43 R182: ENCPW with a non-empty key writes the hex string of the payload XOR the masks, `2n + 32` characters. -/
def Obligations.EncpwWritesCiphertext : Prop :=
  ∀ s : State, KeyWritten s → InputWritten s → 1 ≤ s.keylen →
    ∃ t, exec .encpw s = .next t ∧ t.status = 0x02 ∧ t.outlen = 2 * s.inlen + 32 ∧
      ∀ k, k < s.inlen + 16 →
        Memory.read t.outbuf (2 * k) = some (hexDigit ((payloadByte s k ^^^ maskByte (keyBytes s) k).toNat / 16)) ∧
        Memory.read t.outbuf (2 * k + 1) = some (hexDigit ((payloadByte s k ^^^ maskByte (keyBytes s) k).toNat % 16))

/-- 43 R184: under one key, the first 18 characters depend on the first 9 draws only, whatever the password; under one key and
password the characters from 18 on up to the last 14 are the same whatever the draws; and in a salt position the two characters
are the same exactly when the draws are. -/
def Obligations.EncpwSaltPositions : Prop :=
  ∀ s u t v : State, SameKey s u → s.keylen ≠ 0 → exec .encpw s = .next t → exec .encpw u = .next v →
    (∀ k, k < 9 →
      ((Memory.read t.outbuf (2 * k) = Memory.read v.outbuf (2 * k) ∧
        Memory.read t.outbuf (2 * k + 1) = Memory.read v.outbuf (2 * k + 1)) ↔ drawAt s k = drawAt u k)) ∧
    (SameInput s u →
      (∀ x, 18 ≤ x → x < 18 + 2 * s.inlen → Memory.read t.outbuf x = Memory.read v.outbuf x) ∧
      ∀ k, k < 7 →
        ((Memory.read t.outbuf (18 + 2 * s.inlen + 2 * k) = Memory.read v.outbuf (18 + 2 * s.inlen + 2 * k) ∧
          Memory.read t.outbuf (18 + 2 * s.inlen + 2 * k + 1) = Memory.read v.outbuf (18 + 2 * s.inlen + 2 * k + 1)) ↔
          drawAt s (9 + k) = drawAt u (9 + k)))

/-- 43 R185, R190: DECPW of at least 32 hex digits under any non-empty key, right or wrong, succeeds: the deciphered bytes less
the first 9 and the last 7. -/
def Obligations.DecpwWritesStrippedBytes : Prop :=
  ∀ s : State, KeyWritten s → InputWritten s → 1 ≤ s.keylen → s.inlen % 2 = 0 → AllHex s → 16 ≤ s.inlen / 2 →
    ∃ t, exec .decpw s = .next t ∧ t.status = 0x02 ∧ t.outlen = s.inlen / 2 - 16 ∧
      ∀ x, x < s.inlen / 2 - 16 →
        Memory.read t.outbuf x = some (hexByteAt s (9 + x) ^^^ maskByte (keyBytes s) (9 + x))

/-- 43 R186: DECPW's fault order, MalformedHex before InvalidKey before PayloadTooShort. -/
def Obligations.DecpwFaultOrder : Prop :=
  ∀ s : State, KeyWritten s → InputWritten s →
    ((s.inlen % 2 = 1 ∨ ¬ AllHex s) → ∃ t, exec .decpw s = .next t ∧ t.status = 0x26 ∧ t.outlen = 0) ∧
    (s.inlen % 2 = 0 → AllHex s → s.keylen = 0 → ∃ t, exec .decpw s = .next t ∧ t.status = 0x16 ∧ t.outlen = 0) ∧
    (s.inlen % 2 = 0 → AllHex s → 1 ≤ s.keylen → s.inlen / 2 < 16 →
      ∃ t, exec .decpw s = .next t ∧ t.status = 0x36 ∧ t.outlen = 0)

/-- 43 R187: PayloadTooShort is raised exactly when the decoded ciphertext has fewer than 16 bytes (and nothing faulted before);
exactly 16 bytes give the empty password, a success. -/
def Obligations.DecpwLengthCheck : Prop :=
  (∀ s t : State, exec .decpw s = .next t →
    (t.status = 0x36 ↔ s.inlen % 2 = 0 ∧ AllHex s ∧ s.keylen ≠ 0 ∧ s.inlen / 2 < 16)) ∧
  ∀ s t : State, exec .decpw s = .next t → s.inlen = 32 → AllHex s → s.keylen ≠ 0 → t.status = 0x02 ∧ t.outlen = 0

/-- 43 R189: for every key of at least one byte, every password and every 16 draws, ENCPW, copy OUTBUF to INBUF, DECPW with the
same key ends with STATUS 0x02 and the password. -/
def Obligations.PasswordRoundTrip : Prop :=
  ∀ s t u : State, KeyWritten s → InputWritten s → 1 ≤ s.keylen → exec .encpw s = .next t → CopiedBack t u → SameKey s u →
    ∃ v, exec .decpw u = .next v ∧ v.status = 0x02 ∧ v.outlen = s.inlen ∧
      ∀ x, x < s.inlen → Memory.read v.outbuf x = Memory.read s.inbuf x

/-! ## The host port -/

/-- 20 R60, 10 R34, R36: a write of a KEYBUF or INBUF cell by the host of an idle engine lands in that cell and nowhere else. -/
def Obligations.HostCellWritesLand : Prop :=
  (∀ (s : State) (x : Nat) (v : Byte), busyBit s.status = false → x < Config.keyMax →
    ∃ m, hostAccess (.wr .keybuf x v.toNat) s = .next { s with keybuf := m } ∧ Memory.read m x = some v ∧
      ∀ y, y ≠ x → Memory.read m y = Memory.read s.keybuf y) ∧
  ∀ (s : State) (x : Nat) (v : Byte), busyBit s.status = false → x < Config.inMax →
    ∃ m, hostAccess (.wr .inbuf x v.toNat) s = .next { s with inbuf := m } ∧ Memory.read m x = some v ∧
      ∀ y, y ≠ x → Memory.read m y = Memory.read s.inbuf y

/-- 10 R35, R36, 93 U6: a length up to the capacity is written whole, 0 among them; a larger one is refused. -/
def Obligations.HostLengthWrites : Prop :=
  ∀ (s : State) (n : Nat), busyBit s.status = false →
    (n ≤ Config.keyMax → hostAccess (.wr .reg 2 n) s = .next { s with keylen := n }) ∧
    (Config.keyMax < n → hostAccess (.wr .reg 2 n) s = .refused .lengthAboveCapacity) ∧
    (n ≤ Config.inMax → hostAccess (.wr .reg 3 n) s = .next { s with inlen := n }) ∧
    (Config.inMax < n → hostAccess (.wr .reg 3 n) s = .refused .lengthAboveCapacity)

/-- 20 R60, R66: the reads of the registers return them, RD STATUS also while BUSY = 1, and change nothing else. -/
def Obligations.HostRegisterReads : Prop :=
  (∀ s : State, hostAccess (.rd .reg 1) s = .next { s with readData := some (.byte s.status) }) ∧
  ∀ s : State, busyBit s.status = false →
    hostAccess (.rd .reg 2) s = .next { s with readData := some (.length s.keylen) } ∧
    hostAccess (.rd .reg 3) s = .next { s with readData := some (.length s.inlen) } ∧
    hostAccess (.rd .reg 4) s = .next { s with readData := some (.length s.outlen) }

/-- 10 R37, 20 R66, 93 U4: a read of OUTBUF below OUTLEN returns the result's byte and changes nothing else; at or above OUTLEN it
returns some byte, of which nothing is said, and changes nothing of the spec's state (the counter of free values is the model's,
log 3). -/
def Obligations.HostOutbufReads : Prop :=
  ∀ (s : State) (x : Nat), busyBit s.status = false → x < Config.outMax →
    (∀ v, x < s.outlen → Memory.read s.outbuf x = some v →
      hostAccess (.rd .outbuf x) s = .next { s with readData := some (.byte v) }) ∧
    (s.outlen ≤ x → ∃ (v : Byte) (n : Nat),
      hostAccess (.rd .outbuf x) s = .next { s with readData := some (.byte v), free := n })

/-- 20 R73, 93 U2: while BUSY = 1 every access but RD STATUS is refused. -/
def Obligations.BusyEngineRefusesAccess : Prop :=
  ∀ (s : State) (a : Access), busyBit s.status = true → isStatusRead a = false →
    hostAccess a s = .refused .accessWhileBusy

/-- 10 R48, 20 R67, R68, 93 U7: what is outside the interface stops; nothing reaches T, I, J. The spec refuses all of it alike; the
names, and that a location that does not exist stops with a fault, are the model's choice (log 8). -/
def Obligations.OutsideInterfaceStops : Prop :=
  ∀ (s : State) (n v : Nat), busyBit s.status = false →
    (∀ sp, (sp = .keybuf ∨ sp = .inbuf ∨ sp = .engine) → hostAccess (.rd sp n) s = .refused .outsideInterface) ∧
    hostAccess (.rd .reg 0) s = .refused .outsideInterface ∧
    (∀ sp, (sp = .outbuf ∨ sp = .engine) → hostAccess (.wr sp n v) s = .refused .outsideInterface) ∧
    hostAccess (.wr .reg 1 v) s = .refused .outsideInterface ∧ hostAccess (.wr .reg 4 v) s = .refused .outsideInterface ∧
    (5 ≤ n → hostAccess (.wr .reg n v) s = .fault .noSuchLocation ∧ hostAccess (.rd .reg n) s = .fault .noSuchLocation) ∧
    (Config.keyMax ≤ n → hostAccess (.wr .keybuf n v) s = .fault .noSuchLocation) ∧
    (Config.inMax ≤ n → hostAccess (.wr .inbuf n v) s = .fault .noSuchLocation) ∧
    (Config.outMax ≤ n → hostAccess (.rd .outbuf n) s = .fault .noSuchLocation)

/-- 20 R60: in a state that meets ControlInv, a step answers a next state exactly when the event to come is one the spec allows;
with no event to come it always does. The list of events is the model's choice (log 6). -/
def Obligations.StepCompletesExactlyWhenAllowed : Prop :=
  ∀ s : State, ControlInv s →
    (s.script = [] → ∃ t, step s = .next t) ∧
    ∀ e rest, s.script = e :: rest → ((∃ t, step s = .next t) ↔ eventAllowed e s = true)

/-- 20 R72, R66: with no command in flight, the result and STATUS stay as they are until the next WR CMD or the reset input. -/
def Obligations.ResultStableUntilNextCommand : Prop :=
  ∀ (s t : State) (e : Event) (rest : List Event), s.script = e :: rest → isCmdWrite e = false → e ≠ .reset →
    s.command = none → step s = .next t → t.outbuf = s.outbuf ∧ t.outlen = s.outlen ∧ t.status = s.status

/-- 10 R30, the column "written by": what a step changes of the spec's state, it changes in an event that may write it. The list
of events and the engine's turn are the model's choice (log 5, 6), and so is a draw taken ahead by an ENCPW in flight (log 14).
That T, I and J change in no turn of a command that does not use the key is the model's choice too (log 10): the spec lets them
hold any value after any command (10 R44, 60 R216, 93 U3). -/
def Obligations.EachRegisterHasItsWriters : Prop :=
  ∀ s t : State, step s = .next t → s.script.head? ≠ some .reset →
    (t.keybuf ≠ s.keybuf → ∃ x v, s.script.head? = some (.host (.wr .keybuf x v))) ∧
    (t.keylen ≠ s.keylen → ∃ n, s.script.head? = some (.host (.wr .reg 2 n))) ∧
    (t.inbuf ≠ s.inbuf → ∃ x v, s.script.head? = some (.host (.wr .inbuf x v))) ∧
    (t.inlen ≠ s.inlen → ∃ n, s.script.head? = some (.host (.wr .reg 3 n))) ∧
    (t.cipher ≠ s.cipher → EngineNext s ∧ ∃ i, s.command = some (encode i) ∧ usesKey i = true) ∧
    (t.drawn ≠ s.drawn → (EngineNext s ∨ s.script.head? = some .draw) ∧ s.command = some (encode .encpw)) ∧
    (t.outbuf ≠ s.outbuf ∨ t.outlen ≠ s.outlen ∨ t.status ≠ s.status →
      (EngineNext s ∧ s.command ≠ none) ∨ ∃ c, s.script.head? = some (.host (.wr .reg 0 c)))

/-! ## Reset -/

/-- 10 R49: the values the spec gives for reset; each byte of the default key is a 7-bit character (00 R9). -/
def Obligations.ResetValues : Prop :=
  State.reset.status = 0x00 ∧ State.reset.keylen = 8 ∧ State.reset.inlen = 0 ∧ State.reset.outlen = 0 ∧
  ∀ x : Fin 8, Memory.read State.reset.keybuf x.val = some (Config.defaultKey x) ∧ (Config.defaultKey x).toNat < 0x80

/-- 70 R240, R242: the reset input, at any moment and also during a command, leaves the values of 10 R49 and abandons the
command with no result and no fault kind; draws already taken are not returned (70 R242) and the randomness source is not reset
(10 R49). An ENCPW in flight that has taken fewer than 16 draws may take one more, which is gone from the port; the reset that
follows then leaves it gone. That the reset and the draws arrive as events of the list is the model's choice (log 6, 14). -/
def Obligations.ResetInputAbandonsCommand : Prop :=
  (∀ (s : State) (rest : List Event), s.script = .reset :: rest →
    ∃ t, step s = .next t ∧ t.status = 0x00 ∧ t.keylen = 8 ∧ t.inlen = 0 ∧ t.outlen = 0 ∧
      (∀ x : Fin 8, Memory.read t.keybuf x.val = some (Config.defaultKey x)) ∧ t.command = none ∧
      t.drawn = s.drawn ∧ t.rndQueue = s.rndQueue ∧ t.taken = [] ∧ t.script = rest) ∧
  ∀ (s : State) (rest : List Event), s.script = .draw :: .reset :: rest → s.command = some (encode .encpw) →
    s.taken.length < 16 →
    ∃ u t, step s = .next u ∧ u.status = s.status ∧ u.command = s.command ∧ (∀ m, drawAt u m = drawAt s m) ∧
      step u = .next t ∧ t.drawn = s.drawn + 1 ∧ t.rndQueue = s.rndQueue.drop 1 ∧ t.taken = [] ∧ t.command = none

/-- The two invariants hold at reset. -/
def Obligations.InvariantsHoldAtReset : Prop := BufferInv State.reset ∧ ControlInv State.reset

/-! ## Invariants -/

/-- Every step keeps the buffers canonical and within their capacities, and OUTBUF defined exactly below OUTLEN (10 R35 to R38,
20 R68). -/
def Obligations.StepKeepsBufferInv : Prop :=
  ∀ s t : State, BufferInv s → step s = .next t → BufferInv t

/-- Every step keeps STATUS a value of 10 R41, with BUSY = 1 exactly while a launched command is in flight, and at most 16
draws taken ahead, by an ENCPW in flight only (the byte in flight and the draws taken ahead are the model's choice, log 5, 14). -/
def Obligations.StepKeepsControlInv : Prop :=
  ∀ s t : State, ControlInv s → step s = .next t → ControlInv t

/-- 00 R9, 10 R38: the parameters meet their constraints, and every length the registers hold fits in LEN_W bits. -/
def Obligations.LengthsFitTheirRegisters : Prop :=
  8 ≤ Config.keyMax ∧ 32 ≤ Config.inMax ∧ Config.outMax = 2 * Config.inMax + 32 ∧
  max Config.keyMax Config.outMax < 2 ^ Config.lenW ∧
  ∀ s : State, BufferInv s → s.keylen < 2 ^ Config.lenW ∧ s.inlen < 2 ^ Config.lenW ∧ s.outlen < 2 ^ Config.lenW
end

