-- ==== Sys2Proof/Laws/Table.lean ====
section
/-! SUPPORT. The permutation table: what a swap leaves in each cell, and that swapping keeps a permutation. -/

namespace Sys2Proof.Machine

/-- What a swap leaves in cell `x` (00 R19). -/
theorem tableGet_swap (t : Table) (a b x : Byte) :
    tableGet (tableSwap t a b) x = if x = a then tableGet t b else if x = b then tableGet t a else tableGet t x := by
  simp only [tableGet, tableSwap, Vector.getElem_set]
  by_cases hb : b = x
  · by_cases ha : x = a
    · subst hb; subst ha; simp
    · subst hb; simp [ha]
  · have h1 : b.toNat ≠ x.toNat := fun h => hb (BitVec.eq_of_toNat_eq h)
    have hb' : ¬ x = b := fun h => hb h.symm
    by_cases ha : x = a
    · subst ha; simp [h1]
    · have h2 : a.toNat ≠ x.toNat := fun h => ha (BitVec.eq_of_toNat_eq h).symm
      simp [h1, h2, ha, hb']

@[simp] theorem tableGet_identity (x : Byte) : tableGet identityTable x = x := by
  simp [tableGet, identityTable]

theorem isPermutation_identity : IsPermutation identityTable := fun v => ⟨v, by simp, fun y h => by simpa using h⟩

/-- The cells after a swap are the cells before, with the two indices exchanged. -/
theorem tableGet_swap_eq (t : Table) (a b x : Byte) : tableGet (tableSwap t a b) x = tableGet t (Equiv.swap a b x) := by
  rw [tableGet_swap, Equiv.swap_apply_def]
  split_ifs <;> rfl

/-- A swap of two cells keeps a permutation (10 R32). -/
theorem isPermutation_swap {t : Table} (a b : Byte) (h : IsPermutation t) : IsPermutation (tableSwap t a b) := by
  intro v
  obtain ⟨x, hx, huniq⟩ := h v
  refine ⟨Equiv.swap a b x, ?_, fun y hy => ?_⟩
  · simpa [tableGet_swap_eq] using hx
  · have := huniq (Equiv.swap a b y) (by simpa [tableGet_swap_eq] using hy)
    rw [← this, Equiv.swap_apply_self]

end Sys2Proof.Machine
end

