-- ==== Sys2Proof/Laws/Cipher.lean ====
section
/-! SUPPORT. SCHED and XFORM: what they can answer, and the registers after a number of iterations. -/

namespace Sys2Proof.Machine

/-- The two answers of SCHED (40 R120, R121). -/
theorem sched_cases (key : List Byte) :
    (key.length = 0 ∧ sched key = .error .invalidKey) ∨ (key.length ≠ 0 ∧ sched key = .ok (schedAfter key 256)) := by
  by_cases h : key.length = 0
  · exact .inl ⟨h, by simp [sched, h]⟩
  · exact .inr ⟨h, by simp [sched, h]⟩

theorem sched_of_length_ne_zero {key : List Byte} (h : key.length ≠ 0) : sched key = .ok (schedAfter key 256) :=
  ((sched_cases key).resolve_left fun hk => h hk.1).2

theorem sched_of_length_eq_zero {key : List Byte} (h : key.length = 0) : sched key = .error .invalidKey :=
  ((sched_cases key).resolve_right fun hk => hk.1 h).2

theorem keyByte_eq {key : List Byte} {x : Nat} (h : x % key.length < key.length) : keyByte key x = key[x % key.length] := by
  simp [keyByte, List.getD_eq_getElem?_getD, h]

/-- The registers depend on the key through the bytes its iterations read (40 R125). -/
theorem schedAfter_congr {key key' : List Byte} {n : Nat} (h : ∀ x, x < n → keyByte key x = keyByte key' x) :
    schedAfter key n = schedAfter key' n := by
  induction n with
  | zero => rfl
  | succ n ih =>
    simp only [schedAfter, ih fun x hx => h x (by omega), schedStep, h n (by omega)]

theorem xformAfter_succ (c : Cipher) (k : Nat) : xformAfter c (k + 1) = xformStep (xformAfter c k) := rfl

/-- What the loop of XFORM answers from any registers: masks that do not depend on the data (41 R142, R143). -/
theorem xformLoop_spec (c : Cipher) (data : List Byte) :
    (xformLoop c data).1.length = data.length ∧ (xformLoop c data).2 = xformStep^[data.length] c ∧
    ∀ k, (xformLoop c data).1[k]? = data[k]?.map (· ^^^ mask (xformStep^[k + 1] c)) := by
  induction data generalizing c with
  | nil => simp [xformLoop]
  | cons b rest ih =>
    obtain ⟨h1, h2, h3⟩ := ih (xformStep c)
    refine ⟨by simp [xformLoop, h1], by simp [xformLoop, h2], fun k => ?_⟩
    cases k with
    | zero => simp [xformLoop]
    | succ k => simp [xformLoop, h3]

theorem xformAfter_eq_iterate (c : Cipher) (k : Nat) : xformAfter c k = xformStep^[k] (xformStart c) := by
  induction k with
  | zero => rfl
  | succ k ih => rw [xformAfter_succ, ih, Function.iterate_succ_apply']

@[simp] theorem xform_length (c : Cipher) (data : List Byte) : (xform c data).1.length = data.length :=
  (xformLoop_spec _ data).1

/-- Output byte `k` of XFORM (41 R143). -/
theorem xform_getElem? (c : Cipher) (data : List Byte) (k : Nat) :
    (xform c data).1[k]? = data[k]?.map (· ^^^ mask (xformAfter c (k + 1))) := by
  rw [xformAfter_eq_iterate]
  exact (xformLoop_spec _ data).2.2 k

end Sys2Proof.Machine
end

