-- ==== Sys2Proof/Laws/HexCodec.lean ====
section
/-! SUPPORT. The hex codec: digits and values, and what HexEnc and HexDec can answer. -/

namespace Sys2Proof.Machine

/-- A digit reads back as its nibble (42 R164). -/
theorem hexValue_hexDigit {n : Nat} (h : n ≤ 15) : hexValue (hexDigit n) = some n := by
  interval_cases n <;> decide

theorem hexDigit_injective {m n : Nat} (hm : m ≤ 15) (hn : n ≤ 15) (h : hexDigit m = hexDigit n) : m = n := by
  have := congrArg hexValue h
  simpa [hexValue_hexDigit hm, hexValue_hexDigit hn] using this

/-- A hex value is a nibble. -/
theorem hexValue_le {c : Byte} {v : Nat} (h : hexValue c = some v) : v ≤ 15 := by
  simp only [hexValue] at h
  split_ifs at h <;> simp only [Option.some.injEq] at h <;> omega

/-- The digit of a value is the character it was read from, in upper case (42 R165). -/
theorem hexDigit_hexValue {c : Byte} {v : Nat} (h : hexValue c = some v) : hexDigit v = upperHex c := by
  have key : ∀ c : Byte, (hexValue c).map hexDigit = if (hexValue c).isSome then some (upperHex c) else none := by decide +kernel
  have := key c
  simpa [h] using this

theorem byteOfDigits_toNat {hi lo : Nat} (hh : hi ≤ 15) (hl : lo ≤ 15) : (byteOfDigits hi lo).toNat = 16 * hi + lo := by
  simp only [byteOfDigits, BitVec.toNat_ofNat]
  omega

/-- A byte is its two nibbles (42 R164). -/
theorem byteOfDigits_nibbles (b : Byte) : byteOfDigits (b.toNat / 16) (b.toNat % 16) = b := by
  apply BitVec.eq_of_toNat_eq
  have := b.isLt
  rw [byteOfDigits_toNat (by omega) (by omega)]
  omega

@[simp] theorem hexEnc_length (b : List Byte) : (hexEnc b).length = 2 * b.length := by
  induction b with
  | nil => rfl
  | cons x rest ih => simp [hexEnc, ih]; omega

/-- The two characters of byte `k` (42 R160, 20 R63). -/
theorem hexEnc_getElem? (b : List Byte) (k : Nat) :
    (hexEnc b)[2 * k]? = b[k]?.map (fun x => hexDigit (x.toNat / 16)) ∧
    (hexEnc b)[2 * k + 1]? = b[k]?.map (fun x => hexDigit (x.toNat % 16)) := by
  induction b generalizing k with
  | nil => simp [hexEnc]
  | cons x rest ih =>
    cases k with
    | zero => simp [hexEnc]
    | succ k =>
      have h := ih k
      simpa [hexEnc, show 2 * (k + 1) = 2 * k + 1 + 1 by omega] using h

/-- HexDec of an even number of characters is its digit loop. -/
theorem hexDecPairs_ok_iff {s b : List Byte} : hexDecPairs s = .ok b ↔
    s.length = 2 * b.length ∧ ∀ k, k < b.length → ∃ hi lo,
      s[2 * k]?.bind hexValue = some hi ∧ s[2 * k + 1]?.bind hexValue = some lo ∧ b[k]? = some (byteOfDigits hi lo) := by
  induction s using hexDecPairs.induct generalizing b with
  | case1 =>
    simp only [hexDecPairs, Except.ok.injEq, List.length_nil]
    constructor
    · rintro rfl; simp
    · rintro ⟨h, -⟩; exact (List.eq_nil_of_length_eq_zero (by omega)).symm
  | case2 c =>
    simp only [hexDecPairs, reduceCtorEq, List.length_singleton, false_iff, not_and]
    intro h; omega
  | case3 c d rest hi lo hd hc ih =>
    simp only [hexDecPairs, hc, hd]
    cases hr : hexDecPairs rest with
    | error k =>
      simp only [Except.map, reduceCtorEq, false_iff, not_and, List.length_cons]
      intro hl hall
      cases b with
      | nil => simp at hl
      | cons x b' =>
        have hcontra : hexDecPairs rest = .ok b' := ih.2 ⟨by simp at hl; omega, fun k hk => by
          simpa [show 2 * (k + 1) = 2 * k + 1 + 1 by omega] using hall (k + 1) (by simpa using hk)⟩
        rw [hr] at hcontra
        cases hcontra
    | ok b' =>
      simp only [Except.map, Except.ok.injEq, List.length_cons]
      have hb' := ih.1 hr
      constructor
      · rintro rfl
        refine ⟨by simp [hb'.1]; omega, fun k hk => ?_⟩
        cases k with
        | zero => exact ⟨hi, lo, by simp [hc], by simp [hd], by simp⟩
        | succ k =>
          simpa [show 2 * (k + 1) = 2 * k + 1 + 1 by omega] using hb'.2 k (by simpa using hk)
      · rintro ⟨hl, hall⟩
        cases b with
        | nil => simp at hl
        | cons x b'' =>
          obtain ⟨hi', lo', h1, h2, h3⟩ := hall 0 (by simp)
          simp only [Nat.mul_zero, List.getElem?_cons_zero, Option.bind_some, hc, Option.some.injEq, Nat.zero_add,
            List.getElem?_cons_succ, hd] at h1 h2 h3
          subst h1; subst h2; subst h3
          have : hexDecPairs rest = .ok b'' := ih.2 ⟨by simp at hl; omega, fun k hk => by
            simpa [show 2 * (k + 1) = 2 * k + 1 + 1 by omega] using hall (k + 1) (by simpa using hk)⟩
          rw [hr] at this
          cases this
          rfl
  | case4 c d rest hno =>
    have herr : hexDecPairs (c :: d :: rest) = .error .malformedHex := by
      simp only [hexDecPairs]
    simp only [herr, reduceCtorEq, List.length_cons, false_iff, not_and]
    intro hl hall
    cases b with
    | nil => simp at hl
    | cons x b' =>
      obtain ⟨hi, lo, h1, h2, -⟩ := hall 0 (by simp)
      simp only [Nat.mul_zero, List.getElem?_cons_zero, Option.bind_some, Nat.zero_add, List.getElem?_cons_succ] at h1 h2
      exact hno hi lo h1 h2

/-- What HexDec answers when it succeeds: byte `k` from characters `2k` and `2k+1`, all of them digits (42 R162). -/
theorem hexDec_ok_iff {s b : List Byte} : hexDec s = .ok b ↔
    s.length = 2 * b.length ∧ ∀ k, k < b.length → ∃ hi lo,
      s[2 * k]?.bind hexValue = some hi ∧ s[2 * k + 1]?.bind hexValue = some lo ∧ b[k]? = some (byteOfDigits hi lo) := by
  rw [← hexDecPairs_ok_iff]
  simp only [hexDec]
  split
  · next h =>
    simp only [reduceCtorEq, false_iff]
    intro hok
    have := (hexDecPairs_ok_iff.1 hok).1
    omega
  · rfl

/-- The one fault of HexDec (42 R162). -/
theorem hexDec_error {s : List Byte} {k : FaultKind} (h : hexDec s = .error k) : k = .malformedHex := by
  have aux : ∀ s k, hexDecPairs s = .error k → k = .malformedHex := by
    intro s
    induction s using hexDecPairs.induct with
    | case1 => intro k h; simp [hexDecPairs] at h
    | case2 => intro k h; simp [hexDecPairs] at h; exact h.symm
    | case3 c d rest hi lo hd hc ih =>
      intro k h
      simp only [hexDecPairs, hc, hd] at h
      cases hr : hexDecPairs rest with
      | error k' =>
        simp only [hr, Except.map, Except.error.injEq] at h
        exact h ▸ ih k' hr
      | ok => simp [hr, Except.map] at h
    | case4 c d rest hno =>
      intro k h
      simp only [hexDecPairs] at h
      cases h; rfl
  simp only [hexDec] at h
  split at h
  · cases h; rfl
  · exact aux s k h

end Sys2Proof.Machine
end

