-- ==== Sys2Proof/Laws/State.lean ====
section
/-! SUPPORT. What each named update of the state does to each field, once, by rfl. -/

namespace Sys2Proof.Machine

@[simp] theorem State.setCipher_cipher (s : State) (c : Cipher) : (s.setCipher c).cipher = c := rfl
@[simp] theorem State.setCipher_keybuf (s : State) (c : Cipher) : (s.setCipher c).keybuf = s.keybuf := rfl
@[simp] theorem State.setCipher_keylen (s : State) (c : Cipher) : (s.setCipher c).keylen = s.keylen := rfl
@[simp] theorem State.setCipher_inbuf (s : State) (c : Cipher) : (s.setCipher c).inbuf = s.inbuf := rfl
@[simp] theorem State.setCipher_inlen (s : State) (c : Cipher) : (s.setCipher c).inlen = s.inlen := rfl
@[simp] theorem State.setCipher_outbuf (s : State) (c : Cipher) : (s.setCipher c).outbuf = s.outbuf := rfl
@[simp] theorem State.setCipher_outlen (s : State) (c : Cipher) : (s.setCipher c).outlen = s.outlen := rfl
@[simp] theorem State.setCipher_status (s : State) (c : Cipher) : (s.setCipher c).status = s.status := rfl
@[simp] theorem State.setCipher_rndQueue (s : State) (c : Cipher) : (s.setCipher c).rndQueue = s.rndQueue := rfl
@[simp] theorem State.setCipher_drawn (s : State) (c : Cipher) : (s.setCipher c).drawn = s.drawn := rfl
@[simp] theorem State.setCipher_readData (s : State) (c : Cipher) : (s.setCipher c).readData = s.readData := rfl
@[simp] theorem State.setCipher_command (s : State) (c : Cipher) : (s.setCipher c).command = s.command := rfl
@[simp] theorem State.setCipher_taken (s : State) (c : Cipher) : (s.setCipher c).taken = s.taken := rfl
@[simp] theorem State.setCipher_script (s : State) (c : Cipher) : (s.setCipher c).script = s.script := rfl
@[simp] theorem State.setCipher_free (s : State) (c : Cipher) : (s.setCipher c).free = s.free := rfl

@[simp] theorem State.start_cipher (s : State) (b : Byte) : (s.start b).cipher = s.cipher := rfl
@[simp] theorem State.start_keybuf (s : State) (b : Byte) : (s.start b).keybuf = s.keybuf := rfl
@[simp] theorem State.start_keylen (s : State) (b : Byte) : (s.start b).keylen = s.keylen := rfl
@[simp] theorem State.start_inbuf (s : State) (b : Byte) : (s.start b).inbuf = s.inbuf := rfl
@[simp] theorem State.start_inlen (s : State) (b : Byte) : (s.start b).inlen = s.inlen := rfl
@[simp] theorem State.start_outbuf (s : State) (b : Byte) : (s.start b).outbuf = s.outbuf := rfl
@[simp] theorem State.start_outlen (s : State) (b : Byte) : (s.start b).outlen = s.outlen := rfl
@[simp] theorem State.start_status (s : State) (b : Byte) : (s.start b).status = statusBusy := rfl
@[simp] theorem State.start_rndQueue (s : State) (b : Byte) : (s.start b).rndQueue = s.rndQueue := rfl
@[simp] theorem State.start_drawn (s : State) (b : Byte) : (s.start b).drawn = s.drawn := rfl
@[simp] theorem State.start_readData (s : State) (b : Byte) : (s.start b).readData = s.readData := rfl
@[simp] theorem State.start_command (s : State) (b : Byte) : (s.start b).command = some b := rfl
@[simp] theorem State.start_taken (s : State) (b : Byte) : (s.start b).taken = [] := rfl
@[simp] theorem State.start_script (s : State) (b : Byte) : (s.start b).script = s.script := rfl
@[simp] theorem State.start_free (s : State) (b : Byte) : (s.start b).free = s.free := rfl

@[simp] theorem State.succeed_cipher (s : State) (out : List Byte) : (s.succeed out).cipher = s.cipher := rfl
@[simp] theorem State.succeed_keybuf (s : State) (out : List Byte) : (s.succeed out).keybuf = s.keybuf := rfl
@[simp] theorem State.succeed_keylen (s : State) (out : List Byte) : (s.succeed out).keylen = s.keylen := rfl
@[simp] theorem State.succeed_inbuf (s : State) (out : List Byte) : (s.succeed out).inbuf = s.inbuf := rfl
@[simp] theorem State.succeed_inlen (s : State) (out : List Byte) : (s.succeed out).inlen = s.inlen := rfl
@[simp] theorem State.succeed_outbuf (s : State) (out : List Byte) : (s.succeed out).outbuf = Memory.ofBytes 0 out := rfl
@[simp] theorem State.succeed_outlen (s : State) (out : List Byte) : (s.succeed out).outlen = out.length := rfl
@[simp] theorem State.succeed_status (s : State) (out : List Byte) : (s.succeed out).status = statusSuccess := rfl
@[simp] theorem State.succeed_rndQueue (s : State) (out : List Byte) : (s.succeed out).rndQueue = s.rndQueue := rfl
@[simp] theorem State.succeed_drawn (s : State) (out : List Byte) : (s.succeed out).drawn = s.drawn := rfl
@[simp] theorem State.succeed_readData (s : State) (out : List Byte) : (s.succeed out).readData = s.readData := rfl
@[simp] theorem State.succeed_command (s : State) (out : List Byte) : (s.succeed out).command = s.command := rfl
@[simp] theorem State.succeed_taken (s : State) (out : List Byte) : (s.succeed out).taken = s.taken := rfl
@[simp] theorem State.succeed_script (s : State) (out : List Byte) : (s.succeed out).script = s.script := rfl
@[simp] theorem State.succeed_free (s : State) (out : List Byte) : (s.succeed out).free = s.free := rfl

@[simp] theorem State.raise_cipher (s : State) (k : FaultKind) : (s.raise k).cipher = s.cipher := rfl
@[simp] theorem State.raise_keybuf (s : State) (k : FaultKind) : (s.raise k).keybuf = s.keybuf := rfl
@[simp] theorem State.raise_keylen (s : State) (k : FaultKind) : (s.raise k).keylen = s.keylen := rfl
@[simp] theorem State.raise_inbuf (s : State) (k : FaultKind) : (s.raise k).inbuf = s.inbuf := rfl
@[simp] theorem State.raise_inlen (s : State) (k : FaultKind) : (s.raise k).inlen = s.inlen := rfl
@[simp] theorem State.raise_outbuf (s : State) (k : FaultKind) : (s.raise k).outbuf = [] := rfl
@[simp] theorem State.raise_outlen (s : State) (k : FaultKind) : (s.raise k).outlen = 0 := rfl
@[simp] theorem State.raise_status (s : State) (k : FaultKind) : (s.raise k).status = statusFault k := rfl
@[simp] theorem State.raise_rndQueue (s : State) (k : FaultKind) : (s.raise k).rndQueue = s.rndQueue := rfl
@[simp] theorem State.raise_drawn (s : State) (k : FaultKind) : (s.raise k).drawn = s.drawn := rfl
@[simp] theorem State.raise_readData (s : State) (k : FaultKind) : (s.raise k).readData = s.readData := rfl
@[simp] theorem State.raise_command (s : State) (k : FaultKind) : (s.raise k).command = s.command := rfl
@[simp] theorem State.raise_taken (s : State) (k : FaultKind) : (s.raise k).taken = s.taken := rfl
@[simp] theorem State.raise_script (s : State) (k : FaultKind) : (s.raise k).script = s.script := rfl
@[simp] theorem State.raise_free (s : State) (k : FaultKind) : (s.raise k).free = s.free := rfl

@[simp] theorem State.consume_cipher (s : State) : s.consume.cipher = s.cipher := rfl
@[simp] theorem State.consume_keybuf (s : State) : s.consume.keybuf = s.keybuf := rfl
@[simp] theorem State.consume_keylen (s : State) : s.consume.keylen = s.keylen := rfl
@[simp] theorem State.consume_inbuf (s : State) : s.consume.inbuf = s.inbuf := rfl
@[simp] theorem State.consume_inlen (s : State) : s.consume.inlen = s.inlen := rfl
@[simp] theorem State.consume_outbuf (s : State) : s.consume.outbuf = s.outbuf := rfl
@[simp] theorem State.consume_outlen (s : State) : s.consume.outlen = s.outlen := rfl
@[simp] theorem State.consume_status (s : State) : s.consume.status = s.status := rfl
@[simp] theorem State.consume_rndQueue (s : State) : s.consume.rndQueue = s.rndQueue.tail := rfl
@[simp] theorem State.consume_drawn (s : State) : s.consume.drawn = s.drawn + 1 := rfl
@[simp] theorem State.consume_readData (s : State) : s.consume.readData = s.readData := rfl
@[simp] theorem State.consume_command (s : State) : s.consume.command = s.command := rfl
@[simp] theorem State.consume_taken (s : State) : s.consume.taken = s.taken := rfl
@[simp] theorem State.consume_script (s : State) : s.consume.script = s.script := rfl
@[simp] theorem State.consume_free (s : State) : s.consume.free = s.free := rfl

@[simp] theorem State.takeDraw_cipher (s : State) : s.takeDraw.cipher = s.cipher := rfl
@[simp] theorem State.takeDraw_keybuf (s : State) : s.takeDraw.keybuf = s.keybuf := rfl
@[simp] theorem State.takeDraw_keylen (s : State) : s.takeDraw.keylen = s.keylen := rfl
@[simp] theorem State.takeDraw_inbuf (s : State) : s.takeDraw.inbuf = s.inbuf := rfl
@[simp] theorem State.takeDraw_inlen (s : State) : s.takeDraw.inlen = s.inlen := rfl
@[simp] theorem State.takeDraw_outbuf (s : State) : s.takeDraw.outbuf = s.outbuf := rfl
@[simp] theorem State.takeDraw_outlen (s : State) : s.takeDraw.outlen = s.outlen := rfl
@[simp] theorem State.takeDraw_status (s : State) : s.takeDraw.status = s.status := rfl
@[simp] theorem State.takeDraw_rndQueue (s : State) : s.takeDraw.rndQueue = s.rndQueue.tail := rfl
@[simp] theorem State.takeDraw_drawn (s : State) : s.takeDraw.drawn = s.drawn + 1 := rfl
@[simp] theorem State.takeDraw_readData (s : State) : s.takeDraw.readData = s.readData := rfl
@[simp] theorem State.takeDraw_command (s : State) : s.takeDraw.command = s.command := rfl
@[simp] theorem State.takeDraw_taken (s : State) : s.takeDraw.taken = s.taken ++ [s.portAnswer] := rfl
@[simp] theorem State.takeDraw_script (s : State) : s.takeDraw.script = s.script := rfl
@[simp] theorem State.takeDraw_free (s : State) : s.takeDraw.free = s.free := rfl

/-- SALT's use of a draw taken already leaves the port alone; of a fresh one, it consumes it. -/
theorem State.afterDraw_of_taken {s : State} {r : Fin 62} {rest : List (Fin 62)} (h : s.taken = r :: rest) :
    s.afterDraw = { s with taken := rest } := by simp [State.afterDraw, h]

theorem State.afterDraw_of_none {s : State} (h : s.taken = []) : s.afterDraw = s.consume := by simp [State.afterDraw, h]

@[simp] theorem State.afterDraw_cipher (s : State) : s.afterDraw.cipher = s.cipher := by unfold State.afterDraw; split <;> rfl
@[simp] theorem State.afterDraw_keybuf (s : State) : s.afterDraw.keybuf = s.keybuf := by unfold State.afterDraw; split <;> rfl
@[simp] theorem State.afterDraw_keylen (s : State) : s.afterDraw.keylen = s.keylen := by unfold State.afterDraw; split <;> rfl
@[simp] theorem State.afterDraw_inbuf (s : State) : s.afterDraw.inbuf = s.inbuf := by unfold State.afterDraw; split <;> rfl
@[simp] theorem State.afterDraw_inlen (s : State) : s.afterDraw.inlen = s.inlen := by unfold State.afterDraw; split <;> rfl
@[simp] theorem State.afterDraw_outbuf (s : State) : s.afterDraw.outbuf = s.outbuf := by unfold State.afterDraw; split <;> rfl
@[simp] theorem State.afterDraw_outlen (s : State) : s.afterDraw.outlen = s.outlen := by unfold State.afterDraw; split <;> rfl
@[simp] theorem State.afterDraw_status (s : State) : s.afterDraw.status = s.status := by unfold State.afterDraw; split <;> rfl
@[simp] theorem State.afterDraw_readData (s : State) : s.afterDraw.readData = s.readData := by unfold State.afterDraw; split <;> rfl
@[simp] theorem State.afterDraw_command (s : State) : s.afterDraw.command = s.command := by unfold State.afterDraw; split <;> rfl
@[simp] theorem State.afterDraw_script (s : State) : s.afterDraw.script = s.script := by unfold State.afterDraw; split <;> rfl
@[simp] theorem State.afterDraw_free (s : State) : s.afterDraw.free = s.free := by unfold State.afterDraw; split <;> rfl

@[simp] theorem State.returns_cipher (s : State) (d : ReadData) : (s.returns d).cipher = s.cipher := rfl
@[simp] theorem State.returns_keybuf (s : State) (d : ReadData) : (s.returns d).keybuf = s.keybuf := rfl
@[simp] theorem State.returns_keylen (s : State) (d : ReadData) : (s.returns d).keylen = s.keylen := rfl
@[simp] theorem State.returns_inbuf (s : State) (d : ReadData) : (s.returns d).inbuf = s.inbuf := rfl
@[simp] theorem State.returns_inlen (s : State) (d : ReadData) : (s.returns d).inlen = s.inlen := rfl
@[simp] theorem State.returns_outbuf (s : State) (d : ReadData) : (s.returns d).outbuf = s.outbuf := rfl
@[simp] theorem State.returns_outlen (s : State) (d : ReadData) : (s.returns d).outlen = s.outlen := rfl
@[simp] theorem State.returns_status (s : State) (d : ReadData) : (s.returns d).status = s.status := rfl
@[simp] theorem State.returns_rndQueue (s : State) (d : ReadData) : (s.returns d).rndQueue = s.rndQueue := rfl
@[simp] theorem State.returns_drawn (s : State) (d : ReadData) : (s.returns d).drawn = s.drawn := rfl
@[simp] theorem State.returns_readData (s : State) (d : ReadData) : (s.returns d).readData = some d := rfl
@[simp] theorem State.returns_command (s : State) (d : ReadData) : (s.returns d).command = s.command := rfl
@[simp] theorem State.returns_taken (s : State) (d : ReadData) : (s.returns d).taken = s.taken := rfl
@[simp] theorem State.returns_script (s : State) (d : ReadData) : (s.returns d).script = s.script := rfl
@[simp] theorem State.returns_free (s : State) (d : ReadData) : (s.returns d).free = s.free := rfl

@[simp] theorem State.applyReset_cipher (s : State) : (s.applyReset).cipher = resetCipher s.free := rfl
@[simp] theorem State.applyReset_keybuf (s : State) : (s.applyReset).keybuf = defaultKeyCells := rfl
@[simp] theorem State.applyReset_keylen (s : State) : (s.applyReset).keylen = 8 := rfl
@[simp] theorem State.applyReset_inbuf (s : State) : (s.applyReset).inbuf = [] := rfl
@[simp] theorem State.applyReset_inlen (s : State) : (s.applyReset).inlen = 0 := rfl
@[simp] theorem State.applyReset_outbuf (s : State) : (s.applyReset).outbuf = [] := rfl
@[simp] theorem State.applyReset_outlen (s : State) : (s.applyReset).outlen = 0 := rfl
@[simp] theorem State.applyReset_status (s : State) : (s.applyReset).status = 0x00 := rfl
@[simp] theorem State.applyReset_rndQueue (s : State) : (s.applyReset).rndQueue = s.rndQueue := rfl
@[simp] theorem State.applyReset_drawn (s : State) : (s.applyReset).drawn = s.drawn := rfl
@[simp] theorem State.applyReset_readData (s : State) : (s.applyReset).readData = s.readData := rfl
@[simp] theorem State.applyReset_command (s : State) : (s.applyReset).command = none := rfl
@[simp] theorem State.applyReset_taken (s : State) : (s.applyReset).taken = [] := rfl
@[simp] theorem State.applyReset_script (s : State) : (s.applyReset).script = s.script := rfl
@[simp] theorem State.applyReset_free (s : State) : (s.applyReset).free = s.free + 1 := rfl

/-- The two ways a command ends (00 R12). -/
theorem State.finish_cases (s : State) (r : Except FaultKind (List Byte)) :
    (∃ out, r = .ok out ∧ s.finish r = s.succeed out) ∨ ∃ k, r = .error k ∧ s.finish r = s.raise k := by
  cases r
  · exact .inr ⟨_, rfl, rfl⟩
  · exact .inl ⟨_, rfl, rfl⟩

@[simp] theorem State.finish_ok (s : State) (out : List Byte) : s.finish (.ok out) = s.succeed out := rfl
@[simp] theorem State.finish_error (s : State) (k : FaultKind) : s.finish (.error k) = s.raise k := rfl
@[simp] theorem State.finish_cipher (s : State) (r : Except FaultKind (List Byte)) : (s.finish r).cipher = s.cipher := by cases r <;> rfl
@[simp] theorem State.finish_keybuf (s : State) (r : Except FaultKind (List Byte)) : (s.finish r).keybuf = s.keybuf := by cases r <;> rfl
@[simp] theorem State.finish_keylen (s : State) (r : Except FaultKind (List Byte)) : (s.finish r).keylen = s.keylen := by cases r <;> rfl
@[simp] theorem State.finish_inbuf (s : State) (r : Except FaultKind (List Byte)) : (s.finish r).inbuf = s.inbuf := by cases r <;> rfl
@[simp] theorem State.finish_inlen (s : State) (r : Except FaultKind (List Byte)) : (s.finish r).inlen = s.inlen := by cases r <;> rfl
@[simp] theorem State.finish_rndQueue (s : State) (r : Except FaultKind (List Byte)) : (s.finish r).rndQueue = s.rndQueue := by cases r <;> rfl
@[simp] theorem State.finish_drawn (s : State) (r : Except FaultKind (List Byte)) : (s.finish r).drawn = s.drawn := by cases r <;> rfl
@[simp] theorem State.finish_readData (s : State) (r : Except FaultKind (List Byte)) : (s.finish r).readData = s.readData := by cases r <;> rfl
@[simp] theorem State.finish_command (s : State) (r : Except FaultKind (List Byte)) : (s.finish r).command = s.command := by cases r <;> rfl
@[simp] theorem State.finish_taken (s : State) (r : Except FaultKind (List Byte)) : (s.finish r).taken = s.taken := by cases r <;> rfl
@[simp] theorem State.finish_script (s : State) (r : Except FaultKind (List Byte)) : (s.finish r).script = s.script := by cases r <;> rfl
@[simp] theorem State.finish_free (s : State) (r : Except FaultKind (List Byte)) : (s.finish r).free = s.free := by cases r <;> rfl

end Sys2Proof.Machine
end

