-- ==== Sys2Proof/Laws/Memory.lean ====
section
/-! SUPPORT. The buffers: reads after writes, the canonical form kept, sequences of cells read and laid out. -/

namespace Sys2Proof.Machine

theorem Memory.read_write_same (m : Memory) (a : Nat) (v : Byte) : Memory.read (Memory.write m a v) a = some v := by
  induction m with
  | nil => simp [Memory.write, Memory.read]
  | cons c rest ih =>
    obtain ⟨k, w⟩ := c
    simp only [Memory.write]
    split
    · simp [Memory.read]
    · split
      · simp [Memory.read]
      · next h => simp [Memory.read, h, ih]

theorem Memory.read_write_ne (m : Memory) (a b : Nat) (v : Byte) (h : b ≠ a) :
    Memory.read (Memory.write m a v) b = Memory.read m b := by
  induction m with
  | nil => simp [Memory.write, Memory.read, h]
  | cons c rest ih =>
    obtain ⟨k, w⟩ := c
    simp only [Memory.write]
    split
    · simp [Memory.read, h]
    · split
      · next hk => simp [Memory.read, h, ← hk]
      · simp [Memory.read, ih]

/-- What the entries of a written buffer are: the one written, and entries that were there. -/
theorem Memory.mem_write {m : Memory} {a : Nat} {v : Byte} {c : Host.Cell} (h : c ∈ Memory.write m a v) :
    c = (a, v) ∨ c ∈ m := by
  induction m with
  | nil => simpa [Memory.write] using h
  | cons d rest ih =>
    obtain ⟨k, w⟩ := d
    simp only [Memory.write] at h
    split at h
    · simpa using h
    · split at h
      · simp only [List.mem_cons] at h ⊢
        tauto
      · simp only [List.mem_cons] at h ⊢
        rcases h with h | h
        · exact .inr (.inl h)
        · exact (ih h).imp_right .inr

theorem Memory.wf_write {m : Memory} (a : Nat) (v : Byte) (h : Memory.wf m) : Memory.wf (Memory.write m a v) := by
  induction m with
  | nil => simp [Memory.write, Memory.wf]
  | cons d rest ih =>
    obtain ⟨k, w⟩ := d
    simp only [Memory.wf, List.pairwise_cons] at h
    obtain ⟨hk, hrest⟩ := h
    simp only [Memory.write]
    split
    · next hlt =>
      simp only [Memory.wf, List.pairwise_cons, List.mem_cons]
      refine ⟨?_, hk, hrest⟩
      rintro c (rfl | hc)
      · exact hlt
      · exact hlt.trans (hk c hc)
    · split
      · next heq =>
        simp only [Memory.wf, List.pairwise_cons]
        exact ⟨fun c hc => heq ▸ hk c hc, hrest⟩
      · next hnlt hne =>
        simp only [Memory.wf, List.pairwise_cons]
        refine ⟨fun c hc => ?_, ih hrest⟩
        rcases Memory.mem_write hc with rfl | hc
        · simp only; omega
        · exact hk c hc

theorem Memory.wf_nil : Memory.wf [] := List.Pairwise.nil

/-- The layout of a sequence: every entry's index is at or above the start and below the end. -/
theorem Memory.mem_ofBytes {bytes : List Byte} {a : Nat} {c : Host.Cell} (h : c ∈ Memory.ofBytes a bytes) :
    a ≤ c.1 ∧ c.1 < a + bytes.length := by
  induction bytes generalizing a with
  | nil => simp [Memory.ofBytes] at h
  | cons b rest ih =>
    simp only [Memory.ofBytes, List.mem_cons] at h
    rcases h with rfl | h
    · simp
    · have := ih h
      simp only [List.length_cons]
      omega

theorem Memory.wf_ofBytes (a : Nat) (bytes : List Byte) : Memory.wf (Memory.ofBytes a bytes) := by
  induction bytes generalizing a with
  | nil => exact Memory.wf_nil
  | cons b rest ih =>
    simp only [Memory.ofBytes, Memory.wf, List.pairwise_cons]
    exact ⟨fun c hc => (Memory.mem_ofBytes hc).1, ih (a + 1)⟩

/-- Cell `a + k` of a laid-out sequence holds element `k`; the cells past the end hold no value. -/
theorem Memory.read_ofBytes (a k : Nat) (bytes : List Byte) : Memory.read (Memory.ofBytes a bytes) (a + k) = bytes[k]? := by
  induction bytes generalizing a k with
  | nil => simp [Memory.ofBytes, Memory.read, Memory.unlisted]
  | cons b rest ih =>
    cases k with
    | zero => simp [Memory.ofBytes, Memory.read]
    | succ k =>
      have := ih (a + 1) k
      simp only [Memory.ofBytes, Memory.read]
      rw [if_neg (by omega), show a + (k + 1) = a + 1 + k by omega, this]
      simp

@[simp] theorem Memory.read_ofBytes_zero (k : Nat) (bytes : List Byte) :
    Memory.read (Memory.ofBytes 0 bytes) k = bytes[k]? := by
  simpa using Memory.read_ofBytes 0 k bytes

@[simp] theorem Memory.read_nil (k : Nat) : Memory.read [] k = none := rfl

/-- What reading a sequence can answer: its bytes, `n` of them, each the value of its cell. -/
theorem Memory.bytesFrom_eq_some {m : Memory} {a n : Nat} {l : List Byte} :
    Memory.bytesFrom m a n = some l ↔ l.length = n ∧ ∀ k, k < n → Memory.read m (a + k) = l[k]? := by
  induction n generalizing a l with
  | zero =>
    simp only [Memory.bytesFrom, Option.some.injEq]
    constructor
    · rintro rfl; simp
    · rintro ⟨h, -⟩; exact (List.eq_nil_of_length_eq_zero h).symm
  | succ n ih =>
    simp only [Memory.bytesFrom]
    cases hr : Memory.read m a with
    | none =>
      simp only [reduceCtorEq, false_iff, not_and]
      intro hl hall
      have := hall 0 (by omega)
      simp only [Nat.add_zero, hr] at this
      cases l with
      | nil => simp at hl
      | cons => simp at this
    | some v =>
      simp only [Option.map_eq_some_iff]
      constructor
      · rintro ⟨l', hl', rfl⟩
        obtain ⟨hlen, hall⟩ := ih.1 hl'
        refine ⟨by simp [hlen], fun k hk => ?_⟩
        cases k with
        | zero => simpa using hr
        | succ k =>
          have := hall k (by omega)
          rw [show a + (k + 1) = a + 1 + k by omega, this]
          simp
      · rintro ⟨hlen, hall⟩
        cases l with
        | nil => simp at hlen
        | cons w l' =>
          have h0 := hall 0 (by omega)
          simp only [Nat.add_zero, hr, List.getElem?_cons_zero, Option.some.injEq] at h0
          subst h0
          refine ⟨l', ih.2 ⟨by simpa using hlen, fun k hk => ?_⟩, rfl⟩
          have := hall (k + 1) (by omega)
          rw [show a + (k + 1) = a + 1 + k by omega] at this
          simpa using this

theorem Memory.bytesFrom_isSome {m : Memory} {a n : Nat} :
    (Memory.bytesFrom m a n).isSome = true ↔ ∀ k, k < n → (Memory.read m (a + k)).isSome = true := by
  constructor
  · intro h k hk
    obtain ⟨l, hl⟩ := Option.isSome_iff_exists.1 h
    obtain ⟨hlen, hall⟩ := Memory.bytesFrom_eq_some.1 hl
    simp [hall k hk, hlen, hk]
  · intro h
    refine Option.isSome_iff_exists.2 ⟨(List.range n).map fun k => (Memory.read m (a + k)).getD 0, ?_⟩
    refine Memory.bytesFrom_eq_some.2 ⟨by simp, fun k hk => ?_⟩
    obtain ⟨v, hv⟩ := Option.isSome_iff_exists.1 (h k hk)
    simp [hk, hv]

/-- The canonical form at reset. -/
theorem Memory.wf_defaultKeyCells : Memory.wf defaultKeyCells := by
  simp [Memory.wf, defaultKeyCells]

end Sys2Proof.Machine
end

