-- ==== Sys2Proof/Laws/Operands.lean ====
section
/-! SUPPORT. A command's operands: when the key and the input are defined, what they are, and what the salts are. -/

namespace Sys2Proof.Machine

theorem State.input_eq_some {s : State} {data : List Byte} :
    s.input = some data ↔ data.length = s.inlen ∧ ∀ k, k < s.inlen → Memory.read s.inbuf k = data[k]? := by
  simpa [State.input] using Memory.bytesFrom_eq_some (m := s.inbuf) (a := 0) (n := s.inlen) (l := data)

theorem State.key_eq_some {s : State} {key : List Byte} :
    s.key = some key ↔ key.length = s.keylen ∧ ∀ k, k < s.keylen → Memory.read s.keybuf k = key[k]? := by
  simpa [State.key] using Memory.bytesFrom_eq_some (m := s.keybuf) (a := 0) (n := s.keylen) (l := key)

theorem State.input_isSome {s : State} : s.input.isSome = true ↔ InputWritten s := by
  simpa [State.input, InputWritten] using Memory.bytesFrom_isSome (m := s.inbuf) (a := 0) (n := s.inlen)

theorem State.key_isSome {s : State} : s.key.isSome = true ↔ KeyWritten s := by
  simpa [State.key, KeyWritten] using Memory.bytesFrom_isSome (m := s.keybuf) (a := 0) (n := s.keylen)

/-- The launch premise of 93 U5 is that the cells it names hold values. -/
theorem inputsDefined_iff {i : Instr} {s : State} :
    inputsDefined i s = true ↔ InputWritten s ∧ (usesKey i = true → KeyWritten s) := by
  simp only [inputsDefined, Bool.and_eq_true, Bool.or_eq_true, Bool.not_eq_true', State.input_isSome, State.key_isSome]
  cases usesKey i <;> simp

/-- A written input, byte by byte. -/
theorem State.input_of_written {s : State} (h : InputWritten s) :
    ∃ data, s.input = some data ∧ data.length = s.inlen ∧ ∀ k, k < s.inlen → data[k]? = some (inByte s k) := by
  obtain ⟨data, hd⟩ := Option.isSome_iff_exists.1 (State.input_isSome.2 h)
  obtain ⟨hl, hr⟩ := State.input_eq_some.1 hd
  refine ⟨data, hd, hl, fun k hk => ?_⟩
  have := hr k hk
  simp [inByte, this, hl, hk]

/-- A written key is the key bytes. -/
theorem State.key_of_written {s : State} (h : KeyWritten s) : s.key = some (keyBytes s) := by
  refine State.key_eq_some.2 ⟨by simp [keyBytes], fun k hk => ?_⟩
  obtain ⟨v, hv⟩ := Option.isSome_iff_exists.1 (h k hk)
  simp [keyBytes, keyCell, hk, hv]

@[simp] theorem keyBytes_length (s : State) : (keyBytes s).length = s.keylen := by simp [keyBytes]

theorem State.key_congr {s u : State} (h : SameKey s u) : u.key = s.key := by
  obtain ⟨hl, hr⟩ := h
  apply Option.ext
  intro l
  simp only [State.key_eq_some, hl]
  exact and_congr_right fun _ => forall₂_congr fun k hk => by rw [hr k hk]

theorem State.input_congr {s u : State} (h : SameInput s u) : u.input = s.input := by
  obtain ⟨hl, hr⟩ := h
  apply Option.ext
  intro l
  simp only [State.input_eq_some, hl]
  exact and_congr_right fun _ => forall₂_congr fun k hk => by rw [hr k hk]

/-- What `n` draws of SALT leave: they are gone, from those taken already first and then from the port (20 R66); nothing else has
changed. -/
theorem drawSalt_state (n : Nat) (s : State) :
    (drawSalt n s).2 =
      { s with
        taken := s.taken.drop n
        rndQueue := s.rndQueue.drop (n - s.taken.length)
        drawn := s.drawn + (n - s.taken.length) } := by
  induction n generalizing s with
  | zero => simp [drawSalt]
  | succ n ih =>
    rw [drawSalt, ih]
    cases h : s.taken with
    | nil =>
      rw [State.afterDraw_of_none h]
      simp [State.consume, h, Nat.add_assoc, Nat.add_comm 1 n]
    | cons r rest => simp [State.afterDraw_of_taken h]

/-- Draw `m + 1` is draw `m` once one draw is gone. -/
theorem drawAt_afterDraw (s : State) (m : Nat) : drawAt s.afterDraw m = drawAt s (m + 1) := by
  cases h : s.taken with
  | nil =>
    rw [State.afterDraw_of_none h]
    simp [drawAt, h, List.getD_eq_getElem?_getD, Nat.add_assoc, Nat.add_comm 1 m]
  | cons r rest => simp [State.afterDraw_of_taken h, drawAt, h, List.getD_eq_getElem?_getD]

theorem draw_eq_drawAt (s : State) : s.draw = drawAt s 0 := by
  cases h : s.taken <;> cases h' : s.rndQueue <;> simp [State.draw, State.portAnswer, drawAt, h, h']

/-- Taking a draw ahead of time changes no draw that SALT will use. -/
theorem drawAt_takeDraw (s : State) (m : Nat) : drawAt s.takeDraw m = drawAt s m := by
  cases h : s.rndQueue with
  | cons r rest =>
    simp only [drawAt, State.takeDraw_taken, State.takeDraw_rndQueue, State.takeDraw_drawn, State.portAnswer, h, List.tail_cons,
      List.append_assoc, List.singleton_append, List.length_append, List.length_singleton, List.getD_eq_getElem?_getD]
    by_cases hm : m < (s.taken ++ r :: rest).length
    · simp [List.getElem?_eq_getElem hm]
    · rw [List.length_append, List.length_cons] at hm
      rw [show s.drawn + 1 + (m - (s.taken.length + 1)) = s.drawn + (m - s.taken.length) by omega]
  | nil =>
    simp only [drawAt, State.takeDraw_taken, State.takeDraw_rndQueue, State.takeDraw_drawn, State.portAnswer, h, List.tail_nil,
      List.append_nil, List.length_append, List.length_singleton, List.getD_eq_getElem?_getD, List.getElem?_append]
    split_ifs with hm
    · simp [List.getElem?_eq_getElem hm]
    · obtain hm' | hm' : m - s.taken.length = 0 ∨ 1 ≤ m - s.taken.length := by omega
      · simp [hm', List.getElem?_eq_none (not_lt.1 hm)]
      · rw [List.getElem?_eq_none (not_lt.1 hm), List.getElem?_eq_none (by simpa using hm'),
          show s.drawn + 1 + (m - (s.taken.length + 1)) = s.drawn + (m - s.taken.length) by omega]

@[simp] theorem drawSalt_length (n : Nat) (s : State) : (drawSalt n s).1.length = n := by
  induction n generalizing s with
  | zero => rfl
  | succ n ih => simp [drawSalt, ih]

/-- Salt character `m` is the symbol draw `m` selects (43 R180). -/
theorem drawSalt_getElem? (n : Nat) (s : State) {m : Nat} (h : m < n) : (drawSalt n s).1[m]? = some (alpha (drawAt s m)) := by
  induction n generalizing s m with
  | zero => omega
  | succ n ih =>
    cases m with
    | zero => simp [drawSalt, draw_eq_drawAt]
    | succ m => simpa [drawSalt, drawAt_afterDraw] using ih s.afterDraw (by omega : m < n)

/-- What both salts together leave: 16 draws are gone. -/
theorem saltAfter_state (s : State) :
    (saltAfter s).2 =
      { s with
        taken := s.taken.drop 16
        rndQueue := s.rndQueue.drop (16 - s.taken.length)
        drawn := s.drawn + (16 - s.taken.length) } := by
  simp only [saltAfter, saltBefore, drawSalt_state, List.drop_drop, List.length_drop, Config.prefixLen, Config.suffixLen,
    Nat.add_assoc, show 9 - s.taken.length + (7 - (s.taken.length - 9)) = 16 - s.taken.length by omega]

/-- The draws that remain after `n`. -/
theorem drawAt_drawSalt (n : Nat) (s : State) (m : Nat) : drawAt (drawSalt n s).2 m = drawAt s (n + m) := by
  induction n generalizing s with
  | zero => simp [drawSalt]
  | succ n ih => rw [drawSalt, ih, drawAt_afterDraw, show n + m + 1 = n + 1 + m by omega]

theorem alpha_injective {a b : Fin 62} (h : alpha a = alpha b) : a = b := by
  have key : ∀ a b : Fin 62, alpha a = alpha b → a = b := by decide +kernel
  exact key a b h

end Sys2Proof.Machine
end

