-- ==== Sys2Proof/Laws/Commands.lean ====
section
/-! SUPPORT. Each command's transition, said once: if it answers a next state, which one. -/

namespace Sys2Proof.Machine

theorem State.withInput_next {s t : State} {run : List Byte → Host.Outcome State Fault Refusal} :
    s.withInput run = .next t ↔ ∃ data, s.input = some data ∧ run data = .next t := by
  simp only [State.withInput]
  cases s.input <;> simp

theorem State.withKeyAndInput_next {s t : State} {run : List Byte → List Byte → Host.Outcome State Fault Refusal} :
    s.withKeyAndInput run = .next t ↔ ∃ key data, s.key = some key ∧ s.input = some data ∧ run key data = .next t := by
  simp only [State.withKeyAndInput]
  cases s.key <;> simp [State.withInput_next]

theorem execHexenc_next {s t : State} :
    execHexenc s = .next t ↔ ∃ data, s.input = some data ∧ t = s.succeed (hexEnc data) := by
  simp only [execHexenc, State.withInput_next, Host.Outcome.next.injEq]
  exact exists_congr fun _ => and_congr_right fun _ => eq_comm

theorem execHexdec_next {s t : State} :
    execHexdec s = .next t ↔ ∃ data, s.input = some data ∧ t = s.finish (hexDec data) := by
  simp only [execHexdec, State.withInput_next, Host.Outcome.next.injEq]
  exact exists_congr fun _ => and_congr_right fun _ => eq_comm

/-- CIPHER on written operands, as one equation. -/
theorem execCipher_eq {s : State} {key data : List Byte} (hk : s.key = some key) (hd : s.input = some data) :
    execCipher s = if key.length = 0 then .next (s.raise .invalidKey)
      else .next ((s.setCipher (xform (schedAfter key 256) data).2).succeed (xform (schedAfter key 256) data).1) := by
  simp only [execCipher, State.withKeyAndInput, State.withInput, hk, hd]
  rcases sched_cases key with ⟨h0, hs⟩ | ⟨h0, hs⟩
  · simp only [hs, if_pos h0]
  · simp only [hs, if_neg h0]

/-- ENCPW on written operands, as one equation. -/
theorem execEncpw_eq {s : State} {key data : List Byte} (hk : s.key = some key) (hd : s.input = some data) :
    execEncpw s = if key.length = 0 then .next ((saltAfter s).2.raise .invalidKey)
      else .next (((saltAfter s).2.setCipher (xform (schedAfter key 256) (encpwPayload s data)).2).succeed
        (hexEnc (xform (schedAfter key 256) (encpwPayload s data)).1)) := by
  simp only [execEncpw, State.withKeyAndInput, State.withInput, hk, hd]
  rcases sched_cases key with ⟨h0, hs⟩ | ⟨h0, hs⟩
  · simp only [hs, if_pos h0]
  · simp only [hs, if_neg h0]

/-- DECPW of characters that are no hex string. -/
theorem execDecpw_malformed {s : State} {key data : List Byte} (hk : s.key = some key) (hd : s.input = some data)
    (hx : hexDec data = .error .malformedHex) : execDecpw s = .next (s.raise .malformedHex) := by
  simp only [execDecpw, State.withKeyAndInput, State.withInput, hk, hd, hx]

/-- DECPW of a hex string, as one equation. -/
theorem execDecpw_eq {s : State} {key data ct : List Byte} (hk : s.key = some key) (hd : s.input = some data)
    (hx : hexDec data = .ok ct) :
    execDecpw s = if key.length = 0 then .next (s.raise .invalidKey)
      else if ct.length < 16 then .next ((s.setCipher (xform (schedAfter key 256) ct).2).raise .payloadTooShort)
      else .next ((s.setCipher (xform (schedAfter key 256) ct).2).succeed (stripSalts (xform (schedAfter key 256) ct).1)) := by
  simp only [execDecpw, State.withKeyAndInput, State.withInput, hk, hd, hx]
  rcases sched_cases key with ⟨h0, hs⟩ | ⟨h0, hs⟩
  · simp only [hs, if_pos h0]
  · simp only [hs, if_neg h0]
    rfl

/-- CIPHER: InvalidKey, or the transform of the input. -/
theorem execCipher_next {s t : State} (h : execCipher s = .next t) :
    ∃ key data, s.key = some key ∧ s.input = some data ∧
      ((key.length = 0 ∧ t = s.raise .invalidKey) ∨
       (key.length ≠ 0 ∧ t = (s.setCipher (xform (schedAfter key 256) data).2).succeed (xform (schedAfter key 256) data).1)) := by
  obtain ⟨key, data, hk, hd, hr⟩ := State.withKeyAndInput_next.1 h
  refine ⟨key, data, hk, hd, ?_⟩
  rcases sched_cases key with ⟨h0, hs⟩ | ⟨h0, hs⟩ <;> simp only [hs, Host.Outcome.next.injEq] at hr
  · exact .inl ⟨h0, hr.symm⟩
  · exact .inr ⟨h0, hr.symm⟩

/-- ENCPW: InvalidKey after the draws, or the hex string of the transform of the payload. -/
theorem execEncpw_next {s t : State} (h : execEncpw s = .next t) :
    ∃ key data, s.key = some key ∧ s.input = some data ∧
      ((key.length = 0 ∧ t = (saltAfter s).2.raise .invalidKey) ∨
       (key.length ≠ 0 ∧ t = ((saltAfter s).2.setCipher (xform (schedAfter key 256) (encpwPayload s data)).2).succeed
          (hexEnc (xform (schedAfter key 256) (encpwPayload s data)).1))) := by
  obtain ⟨key, data, hk, hd, hr⟩ := State.withKeyAndInput_next.1 h
  refine ⟨key, data, hk, hd, ?_⟩
  rcases sched_cases key with ⟨h0, hs⟩ | ⟨h0, hs⟩ <;> simp only [hs, Host.Outcome.next.injEq] at hr
  · exact .inl ⟨h0, hr.symm⟩
  · exact .inr ⟨h0, hr.symm⟩

/-- DECPW: the four ways it can end, in the order of its checks. -/
theorem execDecpw_next {s t : State} (h : execDecpw s = .next t) :
    ∃ key data, s.key = some key ∧ s.input = some data ∧
      ((hexDec data = .error .malformedHex ∧ t = s.raise .malformedHex) ∨
       ∃ ct, hexDec data = .ok ct ∧
        ((key.length = 0 ∧ t = s.raise .invalidKey) ∨
         (key.length ≠ 0 ∧ ct.length < 16 ∧ t = (s.setCipher (xform (schedAfter key 256) ct).2).raise .payloadTooShort) ∨
         (key.length ≠ 0 ∧ 16 ≤ ct.length ∧
          t = (s.setCipher (xform (schedAfter key 256) ct).2).succeed (stripSalts (xform (schedAfter key 256) ct).1)))) := by
  obtain ⟨key, data, hk, hd, hr⟩ := State.withKeyAndInput_next.1 h
  refine ⟨key, data, hk, hd, ?_⟩
  cases hx : hexDec data with
  | error k =>
    obtain rfl := hexDec_error hx
    simp only [hx, Host.Outcome.next.injEq] at hr
    exact .inl ⟨rfl, hr.symm⟩
  | ok ct =>
    refine .inr ⟨ct, rfl, ?_⟩
    rcases sched_cases key with ⟨h0, hs⟩ | ⟨h0, hs⟩ <;> simp only [hx, hs, Host.Outcome.next.injEq] at hr
    · exact .inl ⟨h0, hr.symm⟩
    · split at hr <;> simp only [Host.Outcome.next.injEq] at hr
      · next hlt => exact .inr (.inl ⟨h0, hlt, hr.symm⟩)
      · next hge => exact .inr (.inr ⟨h0, not_lt.1 hge, hr.symm⟩)

@[simp] theorem stripSalts_length (pp : List Byte) : (stripSalts pp).length = pp.length - 16 := by
  simp only [stripSalts, List.length_take, List.length_drop, Config.prefixLen, Config.suffixLen, Config.saltTotal]
  omega

/-- The bytes between the salts (43 R185 step 3). -/
theorem stripSalts_getElem? (pp : List Byte) {x : Nat} (h : x < pp.length - 16) : (stripSalts pp)[x]? = pp[9 + x]? := by
  simp only [stripSalts, List.getElem?_take, List.getElem?_drop, Config.prefixLen, Config.suffixLen, Config.saltTotal]
  rw [if_pos (by omega)]

@[simp] theorem encpwPayload_length (s : State) (password : List Byte) :
    (encpwPayload s password).length = password.length + 16 := by
  simp only [encpwPayload, payload, saltBefore, saltAfter, List.length_append, drawSalt_length,
    Config.prefixLen, Config.suffixLen]
  omega

/-- Payload byte `k` (30 R101). -/
theorem encpwPayload_getElem? {s : State} {password : List Byte} (hd : s.input = some password) {k : Nat}
    (h : k < s.inlen + 16) : (encpwPayload s password)[k]? = some (payloadByte s k) := by
  obtain ⟨hl, hr⟩ := State.input_eq_some.1 hd
  simp only [encpwPayload, payload, payloadByte, saltBefore, saltAfter, Config.prefixLen, Config.suffixLen]
  split_ifs with h1 h2
  · rw [List.append_assoc, List.getElem?_append_left (by simpa using h1), drawSalt_getElem? _ _ h1]
  · rw [List.getElem?_append_left (by simp; omega), List.getElem?_append_right (by simp; omega), drawSalt_length]
    have := hr (k - 9) (by omega)
    simp [inByte, this, hl, show k - 9 < s.inlen by omega]
  · rw [List.getElem?_append_right (by simp; omega), List.length_append, drawSalt_length, hl,
      drawSalt_getElem? _ _ (by omega), drawAt_drawSalt]
    congr 3
    omega

end Sys2Proof.Machine
end

