-- ==== Sys2Proof/Laws/Exec.lean ====
section
/-! SUPPORT. What any command's transition can do, in one lemma: it moves T, I, J and the RND port as far as its rule lets it, and
then ends in one of the two ways. -/

namespace Sys2Proof.Machine

/-- The fault kinds a command can raise (60 R221). -/
def kindsOf : Instr → List FaultKind
  | .hexenc => []
  | .hexdec => [.malformedHex]
  | .encpw => [.invalidKey]
  | .decpw => [.invalidKey, .malformedHex, .payloadTooShort]
  | .cipher => [.invalidKey]

/-- Before a command ends, it has changed nothing but T, I, J (if it uses the key) and the RND port (if it is ENCPW); then it
ends with a result of at most `2 * INLEN + 32` bytes or with a fault of one of its kinds. -/
theorem exec_finish {i : Instr} {s t : State} (h : exec i s = .next t) :
    ∃ (c : Cipher) (r : Except FaultKind (List Byte)) (n : Nat),
      t = State.finish
        { s with
          cipher := c
          taken := s.taken.drop n
          rndQueue := s.rndQueue.drop (n - s.taken.length)
          drawn := s.drawn + (n - s.taken.length) } r ∧
      n = (if i = .encpw then 16 else 0) ∧ (usesKey i = false ∨ s.keylen = 0 → c = s.cipher) ∧
      (∀ out, r = .ok out → out.length ≤ 2 * s.inlen + 32) ∧ ∀ k, r = .error k → k ∈ kindsOf i := by
  have noDraws : ∀ (c : Cipher) (r : Except FaultKind (List Byte)),
      State.finish { s with cipher := c } r = State.finish
        { s with
          cipher := c
          taken := s.taken.drop 0
          rndQueue := s.rndQueue.drop (0 - s.taken.length)
          drawn := s.drawn + (0 - s.taken.length) } r := by simp
  cases i with
  | hexenc =>
    obtain ⟨data, hd, rfl⟩ := execHexenc_next.1 h
    refine ⟨s.cipher, .ok (hexEnc data), 0, noDraws s.cipher (.ok (hexEnc data)), rfl, fun _ => rfl, ?_, by simp⟩
    rintro out ⟨⟩
    simp [(State.input_eq_some.1 hd).1]
  | hexdec =>
    obtain ⟨data, hd, rfl⟩ := execHexdec_next.1 h
    refine ⟨s.cipher, hexDec data, 0, noDraws _ _, rfl, fun _ => rfl, fun out hout => ?_, fun k hk => ?_⟩
    · have := (hexDec_ok_iff.1 hout).1
      have := (State.input_eq_some.1 hd).1
      omega
    · simp [kindsOf, hexDec_error hk]
  | cipher =>
    obtain ⟨key, data, hk, hd, ⟨h0, rfl⟩ | ⟨h0, rfl⟩⟩ := execCipher_next h
    · exact ⟨s.cipher, .error .invalidKey, 0,
        noDraws s.cipher (.error .invalidKey), rfl, fun _ => rfl, by simp, by simp [kindsOf]⟩
    · refine ⟨_, .ok _, 0,
        noDraws (xform (schedAfter key 256) data).2 (.ok (xform (schedAfter key 256) data).1), rfl, fun hc => ?_, ?_, by simp⟩
      · have := (State.key_eq_some.1 hk).1
        simp [usesKey] at hc
        omega
      · rintro out ⟨⟩
        have := (State.input_eq_some.1 hd).1
        simp
        omega
  | encpw =>
    obtain ⟨key, data, hk, hd, ⟨h0, rfl⟩ | ⟨h0, rfl⟩⟩ := execEncpw_next h
    · rw [saltAfter_state]
      exact ⟨s.cipher, .error .invalidKey, 16, rfl, rfl, fun _ => rfl, by simp, by simp [kindsOf]⟩
    · rw [saltAfter_state]
      refine ⟨_, .ok _, 16, rfl, rfl, fun hc => ?_, ?_, by simp⟩
      · have := (State.key_eq_some.1 hk).1
        simp [usesKey] at hc
        omega
      · rintro out ⟨⟩
        have := (State.input_eq_some.1 hd).1
        simp
        omega
  | decpw =>
    obtain ⟨key, data, hk, hd, ⟨hx, rfl⟩ | ⟨ct, hx, ⟨h0, rfl⟩ | ⟨h0, hl, rfl⟩ | ⟨h0, hl, rfl⟩⟩⟩ := execDecpw_next h
    · exact ⟨s.cipher, .error .malformedHex, 0,
        noDraws s.cipher (.error .malformedHex), rfl, fun _ => rfl, by simp, by simp [kindsOf]⟩
    · exact ⟨s.cipher, .error .invalidKey, 0,
        noDraws s.cipher (.error .invalidKey), rfl, fun _ => rfl, by simp, by simp [kindsOf]⟩
    · refine ⟨_, .error .payloadTooShort, 0,
        noDraws (xform (schedAfter key 256) ct).2 (.error .payloadTooShort), rfl, fun hc => ?_, by simp, by simp [kindsOf]⟩
      have := (State.key_eq_some.1 hk).1
      simp [usesKey] at hc
      omega
    · refine ⟨_, .ok _, 0,
        noDraws (xform (schedAfter key 256) ct).2 (.ok (stripSalts (xform (schedAfter key 256) ct).1)), rfl, fun hc => ?_, ?_, by simp⟩
      · have := (State.key_eq_some.1 hk).1
        simp [usesKey] at hc
        omega
      · rintro out ⟨⟩
        have := (State.input_eq_some.1 hd).1
        have := (hexDec_ok_iff.1 hx).1
        simp
        omega

/-- A command's transition is refused only for an input cell that holds no value, and never stops with a machine fault. -/
theorem exec_cases (i : Instr) (s : State) :
    (inputsDefined i s = true ∧ ∃ t, exec i s = .next t) ∨
    (inputsDefined i s = false ∧ exec i s = .refused .unwrittenInput) := by
  cases i <;> simp only [exec, execHexenc, execHexdec, execEncpw, execDecpw, execCipher, State.withInput,
    State.withKeyAndInput, inputsDefined, usesKey] <;> cases s.input <;> cases s.key <;> simp <;> (repeat' split) <;> simp

end Sys2Proof.Machine
end

