-- ==== Sys2Proof/Laws/Flags.lean ====
section
/-! SUPPORT. The STATUS values as bytes (10 R41). -/

namespace Sys2Proof.Machine

@[simp] theorem statusBusy_eq : statusBusy = 0x01 := rfl
@[simp] theorem statusSuccess_eq : statusSuccess = 0x02 := rfl
@[simp] theorem statusFault_invalidKey : statusFault .invalidKey = 0x16 := rfl
@[simp] theorem statusFault_malformedHex : statusFault .malformedHex = 0x26 := rfl
@[simp] theorem statusFault_payloadTooShort : statusFault .payloadTooShort = 0x36 := rfl
@[simp] theorem statusFault_illegalCommand : statusFault .illegalCommand = 0x46 := rfl
@[simp] theorem busyBit_idle : busyBit 0#8 = false := rfl
@[simp] theorem busyBit_busy : busyBit 1#8 = true := rfl
@[simp] theorem busyBit_success : busyBit 2#8 = false := rfl
@[simp] theorem busyBit_invalidKey : busyBit 22#8 = false := rfl
@[simp] theorem busyBit_malformedHex : busyBit 38#8 = false := rfl
@[simp] theorem busyBit_payloadTooShort : busyBit 54#8 = false := rfl
@[simp] theorem busyBit_illegalCommand : busyBit 70#8 = false := rfl
theorem busyBit_fault (k : FaultKind) : busyBit (statusFault k) = false := by cases k <;> rfl
@[simp] theorem doneBit_idle : doneBit 0#8 = false := rfl
@[simp] theorem doneBit_busy : doneBit 1#8 = false := rfl
@[simp] theorem doneBit_success : doneBit 2#8 = true := rfl
@[simp] theorem doneBit_invalidKey : doneBit 22#8 = true := rfl
@[simp] theorem doneBit_malformedHex : doneBit 38#8 = true := rfl
@[simp] theorem doneBit_payloadTooShort : doneBit 54#8 = true := rfl
@[simp] theorem doneBit_illegalCommand : doneBit 70#8 = true := rfl
theorem doneBit_fault (k : FaultKind) : doneBit (statusFault k) = true := by cases k <;> rfl
@[simp] theorem errBit_idle : errBit 0#8 = false := rfl
@[simp] theorem errBit_busy : errBit 1#8 = false := rfl
@[simp] theorem errBit_success : errBit 2#8 = false := rfl
@[simp] theorem errBit_invalidKey : errBit 22#8 = true := rfl
@[simp] theorem errBit_malformedHex : errBit 38#8 = true := rfl
@[simp] theorem errBit_payloadTooShort : errBit 54#8 = true := rfl
@[simp] theorem errBit_illegalCommand : errBit 70#8 = true := rfl
theorem errBit_fault (k : FaultKind) : errBit (statusFault k) = true := by cases k <;> rfl

end Sys2Proof.Machine
end

