-- ==== Sys2Proof/Laws/Host.lean ====
section
/-! SUPPORT. What an access, the engine's turn and a step can do, each said once. -/

namespace Sys2Proof.Machine

/-- What a step takes: the engine's turn when no event is to come, else the first event. -/
theorem step_next {s t : State} (h : step s = .next t) :
    (s.script = [] ∧ engineTurn s = .next t) ∨
    ∃ e rest, s.script = e :: rest ∧ event e { s with script := rest } = .next t := by
  simp only [step, nextEvent] at h
  split at h
  · next hs => exact .inl ⟨hs, h⟩
  · next e rest hs => exact .inr ⟨e, rest, hs, h⟩

/-- What the engine's turn can do: nothing when idle, the command in flight, or the end of a reserved byte. -/
theorem engineTurn_next {s t : State} (h : engineTurn s = .next t) :
    (s.command = none ∧ t = s) ∨
    ∃ b, s.command = some b ∧
      ((∃ i, decodeByte b = .ok i ∧ exec i { s with command := none } = .next t) ∨
       ∃ k, decodeByte b = .error k ∧ t = ({ s with command := none } : State).raise k) := by
  simp only [engineTurn] at h
  split at h
  · next hc => exact .inl ⟨hc, by simpa using h.symm⟩
  · next b hc =>
    refine .inr ⟨b, hc, ?_⟩
    split at h
    · next i hi => exact .inl ⟨i, hi, h⟩
    · next k hk => exact .inr ⟨k, hk, by simpa using h.symm⟩

/-- A draw ahead of time is one of an ENCPW in flight, or nothing happens. -/
theorem engineDraw_next {s t : State} (h : engineDraw s = .next t) :
    (s.command = some (encode .encpw) ∧ s.taken.length < 16 ∧ t = s.takeDraw) ∨ t = s := by
  simp only [engineDraw] at h
  split at h
  · next hc => exact .inl ⟨hc.1, hc.2, by simpa using h.symm⟩
  · exact .inr (by simpa using h.symm)

/-- Answers put on the RND port change that port only (10 R46). -/
theorem sourceAnswers_next {draws : List (BitVec 6)} {s t : State} (h : sourceAnswers draws s = .next t) :
    ∃ q, t = { s with rndQueue := s.rndQueue ++ q } := by
  unfold sourceAnswers at h
  split at h <;> cases h
  exact ⟨_, rfl⟩

theorem decodeByte_ok {b : Byte} {i : Instr} (h : decodeByte b = .ok i) : b = encode i := by
  simp only [decodeByte] at h
  split_ifs at h <;> cases h <;> assumption

theorem decodeByte_error {b : Byte} {k : FaultKind} (h : decodeByte b = .error k) : k = .illegalCommand := by
  simp only [decodeByte] at h
  split_ifs at h
  cases h
  rfl

@[simp] theorem decodeByte_encode (i : Instr) : decodeByte (encode i) = .ok i := by cases i <;> rfl

/-- `WR CMD, b` by the host of an idle engine is the launch of `b`. -/
theorem hostAccess_wrCmd {s : State} (hs : busyBit s.status = false) (b : Byte) :
    hostAccess (.wr .reg 0 b.toNat) s = launch b s := by
  have hb : ¬ 256 ≤ b.toNat := by have := b.isLt; omega
  simp [hostAccess, hs, hostWrite, writeReg, writeCmd, hb]

/-- What a host access that completes does: each of the actions of 20 R60, and nothing else. -/
theorem hostAccess_next {a : Access} {s t : State} (h : hostAccess a s = .next t) :
    (a = .rd .reg 1 ∧ t = s.returns (.byte s.status)) ∨
    (busyBit s.status = false ∧
      ((∃ x v, a = .wr .keybuf x v ∧ x < Config.keyMax ∧ v < 256 ∧
          t = { s with keybuf := Memory.write s.keybuf x (BitVec.ofNat 8 v) }) ∨
       (∃ x v, a = .wr .inbuf x v ∧ x < Config.inMax ∧ v < 256 ∧
          t = { s with inbuf := Memory.write s.inbuf x (BitVec.ofNat 8 v) }) ∨
       (∃ n, a = .wr .reg 2 n ∧ n ≤ Config.keyMax ∧ t = { s with keylen := n }) ∨
       (∃ n, a = .wr .reg 3 n ∧ n ≤ Config.inMax ∧ t = { s with inlen := n }) ∨
       (∃ c, a = .wr .reg 0 c ∧ c < 256 ∧
          ((∃ k, decodeByte (BitVec.ofNat 8 c) = .error k ∧ t = s.raise k) ∨
           ∃ i, decodeByte (BitVec.ofNat 8 c) = .ok i ∧ inputsDefined i s = true ∧ t = s.start (BitVec.ofNat 8 c))) ∨
       (∃ x d n, a = .rd .outbuf x ∧ x < Config.outMax ∧ t = ({ s with free := n } : State).returns d) ∨
       (∃ n d, a = .rd .reg n ∧ 1 ≤ n ∧ n ≤ 4 ∧ t = s.returns d))) := by
  simp only [hostAccess] at h
  split at h
  · cases h
  next hb =>
  by_cases hst : isStatusRead a = true
  · have : a = .rd .reg 1 := by
      unfold isStatusRead at hst
      split at hst
      · rfl
      · cases hst
    subst this
    simp only [hostRead, readReg, Host.Outcome.next.injEq] at h
    exact .inl ⟨rfl, h.symm⟩
  have hbusy : busyBit s.status = false := by simpa [hst] using hb
  refine .inr ⟨hbusy, ?_⟩
  cases a with
  | wr space number value =>
    cases space with
    | keybuf =>
      simp only [hostWrite, writeKeyCell] at h
      split_ifs at h with h1 h2
      exact .inl ⟨number, value, rfl, by omega, by omega, by simpa using h.symm⟩
    | inbuf =>
      simp only [hostWrite, writeInCell] at h
      split_ifs at h with h1 h2
      exact .inr (.inl ⟨number, value, rfl, by omega, by omega, by simpa using h.symm⟩)
    | outbuf => simp [hostWrite] at h
    | engine => simp [hostWrite] at h
    | reg =>
      simp only [hostWrite] at h
      unfold writeReg at h
      split at h
      · simp only [writeCmd, launch] at h
        split_ifs at h with h1
        refine .inr (.inr (.inr (.inr (.inl ⟨value, rfl, by omega, ?_⟩))))
        split at h
        · next k hk => exact .inl ⟨k, hk, by simpa using h.symm⟩
        · next i hi =>
          split_ifs at h with h2
          exact .inr ⟨i, hi, h2, by simpa using h.symm⟩
      · cases h
      · simp only [writeKeylen] at h
        split_ifs at h with h1
        exact .inr (.inr (.inl ⟨value, rfl, by omega, by simpa using h.symm⟩))
      · simp only [writeInlen] at h
        split_ifs at h with h1
        exact .inr (.inr (.inr (.inl ⟨value, rfl, by omega, by simpa using h.symm⟩)))
      · cases h
      · cases h
  | rd space number =>
    cases space with
    | keybuf => simp [hostRead] at h
    | inbuf => simp [hostRead] at h
    | engine => simp [hostRead] at h
    | outbuf =>
      simp only [hostRead, readOutCell] at h
      split_ifs at h with h1
      all_goals
        refine .inr (.inr (.inr (.inr (.inr (.inl ?_)))))
        split at h
        · next v hv => exact ⟨number, .byte v, s.free, rfl, by omega, by simpa using h.symm⟩
        · next hv => exact ⟨number, _, s.free + 1, rfl, by omega, by simpa using h.symm⟩
    | reg =>
      refine .inr (.inr (.inr (.inr (.inr (.inr ?_)))))
      simp only [hostRead] at h
      unfold readReg at h
      split at h
      · cases h
      · exact ⟨1, _, rfl, by omega, by omega, by simpa using h.symm⟩
      · exact ⟨2, _, rfl, by omega, by omega, by simpa using h.symm⟩
      · exact ⟨3, _, rfl, by omega, by omega, by simpa using h.symm⟩
      · exact ⟨4, _, rfl, by omega, by omega, by simpa using h.symm⟩
      · cases h

end Sys2Proof.Machine
end

