-- ==== Sys2Proof/Laws/PerInstr.lean ====
section
/-! SUPPORT. Statements made for every command as syntax, one lemma per constructor. -/

namespace Sys2Proof.Laws

/-- A command is well formed, and its code is one byte of the dense range 0x01 .. 0x05 (30 R90, R91, R94). -/
def Codes.Statement (i : Instr) : Prop :=
  i.wf = true ∧ wordWf 8 (encode i).toNat = true ∧ 0x01 ≤ (encode i).toNat ∧ (encode i).toNat ≤ 0x05

theorem Codes.hexenc : Codes.Statement .hexenc := by unfold Codes.Statement; decide
theorem Codes.hexdec : Codes.Statement .hexdec := by unfold Codes.Statement; decide
theorem Codes.encpw : Codes.Statement .encpw := by unfold Codes.Statement; decide
theorem Codes.decpw : Codes.Statement .decpw := by unfold Codes.Statement; decide
theorem Codes.cipher : Codes.Statement .cipher := by unfold Codes.Statement; decide

end Sys2Proof.Laws
end

