-- ==== Sys2Proof/Machine/Script.lean ====
section
/-! DEFINITION. Script: the host-script pseudo-instructions of 30 R105 as lists of events, and the two checks of EXPECT. -/

namespace Sys2Proof.Machine

/-- `WR` of consecutive cells of a buffer from index `x` up. -/
def writeCells (space : Space) (x : Nat) : List Byte → List Event
  | [] => []
  | b :: rest => .host (.wr space x b.toNat) :: writeCells space (x + 1) rest

/-- `KEY b0 b1 ...` and `KEY "s"` (30 R105); with no byte it is `WR KEYLEN, 0`. -/
def scriptKey (key : List Byte) : List Event := writeCells .keybuf 0 key ++ [.host (.wr .reg 2 key.length)]

/-- `IN b0 b1 ...` and `IN "s"` (30 R105). -/
def scriptIn (data : List Byte) : List Event := writeCells .inbuf 0 data ++ [.host (.wr .reg 3 data.length)]

/-- `RND r0 ... r15` (30 R105). -/
def scriptRnd (draws : List (BitVec 6)) : List Event := [.source draws]

/-- `WAIT` (30 R105): `polls` reads of STATUS that find the engine busy, the engine's turn, and the read that finds it idle.
No rule bounds `polls` (70 R258). -/
def scriptWait (polls : Nat) : List Event :=
  List.replicate polls (.host (.rd .reg 1)) ++ [.engine, .host (.rd .reg 1)]

/-- A command mnemonic on a line (30 R104, R105): `WR CMD, <code>`, then `WAIT`. -/
def scriptCommand (i : Instr) (polls : Nat) : List Event :=
  .host (.wr .reg 0 (encode i).toNat) :: scriptWait polls

/-- The pairs `RD OUTBUF[x]`, `WR INBUF[x], v` of OUT2IN from index `x` up. -/
def copyCells (x : Nat) : List Byte → List Event
  | [] => []
  | v :: rest => .host (.rd .outbuf x) :: .host (.wr .inbuf x v.toNat) :: copyCells (x + 1) rest

/-- `OUT2IN` (30 R105) for a host that finds the result `out` in OUTBUF. -/
def scriptOut2in (out : List Byte) : List Event :=
  .host (.rd .reg 4) :: copyCells 0 out ++ [.host (.wr .reg 3 out.length)]

/-- `EXPECT STATUS = v` (30 R105). -/
def expectStatus (v : Byte) (s : State) : Bool := s.status == v

/-- `EXPECT OUT = ...` (30 R105). -/
def expectOut (out : List Byte) (s : State) : Bool :=
  s.outlen == out.length && Memory.bytesFrom s.outbuf 0 s.outlen == some out

end Sys2Proof.Machine
end

