-- ==== Sys2Proof/Tests/Slice0.lean ====
section
/-! SUPPORT. Tests: the WellFormed smoke test, decoding of words written out from 30 R91, single steps against the vectors of
95_test_vectors.md, and one witness for each obligation that has hypotheses. -/

namespace Sys2Proof.Tests

open Sys2Proof Sys2Proof.Machine

/-- A state as reset leaves it, but for key, input and the draws on the RND port. -/
def mk (key inp : List Byte) (draws : List (Fin 62)) : State :=
  { State.reset with
    keybuf := Memory.ofBytes 0 key, keylen := key.length
    inbuf := Memory.ofBytes 0 inp, inlen := inp.length
    rndQueue := draws }

/-- STATUS, OUTLEN and the result after a transition that gives a next state. -/
def result (o : Host.Outcome State Fault Refusal) : Option (Byte × Nat × Option (List Byte)) :=
  match o with
  | .next t => some (t.status, t.outlen, Memory.bytesFrom t.outbuf 0 t.outlen)
  | .fault _ => none
  | .refused _ => none

/-- STATUS and OUTLEN after a transition that gives a next state. -/
def ending (o : Host.Outcome State Fault Refusal) : Option (Byte × Nat) := (result o).map fun r => (r.1, r.2.1)

/-- What the host has read after a transition that gives a next state. -/
def readBack (o : Host.Outcome State Fault Refusal) : Option ReadData :=
  match o with
  | .next t => t.readData
  | .fault _ => none
  | .refused _ => none

/-- The refusal, where there is one. -/
def refusal (o : Host.Outcome State Fault Refusal) : Option Refusal :=
  match o with
  | .next _ => none
  | .fault _ => none
  | .refused r => some r

/-- What is left on the RND port and the count of draws, after a transition that gives a next state. -/
def readBackPort (o : Host.Outcome State Fault Refusal) : Option (List (Fin 62) × Nat) :=
  match o with
  | .next t => some (t.rndQueue, t.drawn)
  | .fault _ => none
  | .refused _ => none

/-- Draws 0, 1, ..., 15, as in V-SP-1. -/
def draws0to15 : List (Fin 62) := [0, 1, 2, 3, 4, 5, 6, 7, 8, 9, 10, 11, 12, 13, 14, 15]

/-- A state with an ENCPW in flight and 16 draws on the port. -/
def sEncpw : State := (mk [0x6B] [0x78] draws0to15).start 0x03

/-! ## WellFormed -/

theorem test_wordWf_refuses_two_bytes : wordWf 16 0x01 = false := by decide
theorem test_wordWf_refuses_no_byte : wordWf 0 0 = false := by decide
theorem test_wordWf_refuses_value_above_byte : wordWf 8 0x101 = false := by decide
theorem test_wordWf_accepts_byte : wordWf 8 0xFF = true := by decide
theorem test_decodeTableWord_refuses_two_bytes : decodeTableWord 16 0x01 = none := by decide

/-! ## Decoding (30 R91, R92): bits 7..0 written out -/

theorem test_decode_hexenc : decodeByte 0b00000001 = .ok .hexenc := by decide
theorem test_decode_hexdec : decodeByte 0b00000010 = .ok .hexdec := by decide
theorem test_decode_encpw : decodeByte 0b00000011 = .ok .encpw := by decide
theorem test_decode_decpw : decodeByte 0b00000100 = .ok .decpw := by decide
theorem test_decode_cipher : decodeByte 0b00000101 = .ok .cipher := by decide
theorem test_decode_reserved :
    ∀ b ∈ ([0x00, 0x06, 0x07, 0x10, 0x80, 0xFF] : List Byte), decodeByte b = .error .illegalCommand := by decide

/-! ## Single transitions against 95_test_vectors.md -/

/-- V-HX-1. -/
theorem test_hexenc_vector :
    result (exec .hexenc (mk [] [0x00, 0x0F, 0xA5, 0xFF, 0x7F, 0x80] [])) =
      some (0x02, 12, some [0x30, 0x30, 0x30, 0x46, 0x41, 0x35, 0x46, 0x46, 0x37, 0x46, 0x38, 0x30]) := by decide

/-- V-HX-2: the empty input, the empty key. -/
theorem test_hexenc_empty : result (exec .hexenc (mk [] [] [])) = some (0x02, 0, some []) := by decide

/-- V-HX-4: `"aBcD"`. -/
theorem test_hexdec_mixed_case :
    result (exec .hexdec (mk [] [0x61, 0x42, 0x63, 0x44] [])) = some (0x02, 2, some [0xAB, 0xCD]) := by decide

/-- V-HX-8: `"D05G"`, and V-HX-5: `"ABC"`. -/
theorem test_hexdec_malformed :
    ending (exec .hexdec (mk [] [0x44, 0x30, 0x35, 0x47] [])) = some (0x26, 0) ∧
    ending (exec .hexdec (mk [] [0x41, 0x42, 0x43] [])) = some (0x26, 0) := by decide

/-- V-SP-1. -/
theorem test_encpw_vector :
    result (exec .encpw (mk (ascii "p@zzW0rD") (ascii "Secret1") draws0to15)) =
      some (0x02, 46, some (ascii "D0512A8E3381860A29348D79408FBC8E560C1D57492177")) := by decide +kernel

/-- V-SP-8: InvalidKey, 16 draws consumed. -/
theorem test_encpw_empty_key :
    ending (exec .encpw (mk [] [0x78] draws0to15)) = some (0x16, 0) ∧
    (saltAfter (mk [] [0x78] draws0to15)).2.rndQueue = [] := by decide

/-- V-SP-4: lower-case digits are accepted. -/
theorem test_decpw_vector :
    result (exec .decpw (mk (ascii "p@zzW0rD") (ascii "d0512a8e3381860a29348d79408fbc8e560c1d57492177") [])) =
      some (0x02, 7, some (ascii "Secret1")) := by decide +kernel

/-- V-SP-9, V-SP-7: `"ABC"` with no key, 30 digits with no key, `"GG"` with a key, no characters with a key. -/
theorem test_decpw_fault_order :
    ending (exec .decpw (mk [] [0x41, 0x42, 0x43] [])) = some (0x26, 0) ∧
    ending (exec .decpw (mk [] (List.replicate 30 0x30) [])) = some (0x16, 0) ∧
    ending (exec .decpw (mk [0x6B] [0x47, 0x47] [])) = some (0x26, 0) ∧
    ending (exec .decpw (mk [0x6B] [] [])) = some (0x36, 0) := by decide

/-- V-KC-1. -/
theorem test_cipher_vector :
    result (exec .cipher (mk (ascii "Key") (ascii "Plaintext") [])) =
      some (0x02, 9, some [0xBB, 0xF3, 0x16, 0xE8, 0xD9, 0x40, 0xAF, 0x0A, 0xD3]) := by decide +kernel

/-- V-KC-7. -/
theorem test_cipher_empty_key :
    ending (exec .cipher (mk [] (ascii "Plaintext") [])) = some (0x16, 0) ∧
    ending (exec .cipher (mk [] [] [])) = some (0x16, 0) ∧
    ending (exec .cipher (mk [0x4B, 0x65, 0x79] [] [])) = some (0x02, 0) := by decide

/-- V-KS-1: the first four values of J for key `"Key"`. -/
theorem test_sched_first_iterations :
    [1, 2, 3, 4].map (fun n => (schedAfter [0x4B, 0x65, 0x79] n).J) = [75, 177, 44, 122] := by decide +kernel

/-! ## The host port -/

/-- V-CMD-1. -/
theorem test_wr_cmd_reserved :
    ∀ c ∈ [0x00, 0x06, 0x07, 0x10, 0x80, 0xFF], ending (hostAccess (.wr .reg 0 c) State.reset) = some (0x46, 0) := by decide

/-- V-CMD-4. -/
theorem test_reads_after_reset :
    [1, 2, 3, 4].map (fun n => readBack (hostAccess (.rd .reg n) State.reset)) =
      [some (.byte 0x00), some (.length 8), some (.length 0), some (.length 0)] := by decide

/-- 93 U5: a command is not launched over an INBUF cell nothing has written. -/
theorem test_wr_cmd_unwritten_input :
    refusal (hostAccess (.wr .reg 0 0x01) { State.reset with inlen := 1 }) = some .unwrittenInput := by decide

/-- 93 U8: 62 and 63 are no answer of the randomness source; 61 is one. -/
theorem test_source_range :
    refusal (sourceAnswers [62] State.reset) = some .drawOutOfRange ∧
    refusal (sourceAnswers [63] State.reset) = some .drawOutOfRange ∧ refusal (sourceAnswers [61] State.reset) = none := by decide

/-- 70 R242: an ENCPW in flight takes a draw; the reset input then leaves the port without it. -/
theorem test_reset_returns_no_draw :
    readBackPort (step { sEncpw with script := [.draw] }) = some ([1, 2, 3, 4, 5, 6, 7, 8, 9, 10, 11, 12, 13, 14, 15], 1) ∧
    readBackPort (.next sEncpw.takeDraw.applyReset) = some ([1, 2, 3, 4, 5, 6, 7, 8, 9, 10, 11, 12, 13, 14, 15], 1) := by decide

/-- A HEXENC in flight takes none (70 R245). -/
theorem test_hexenc_takes_no_draw :
    readBackPort (step { State.reset.start 0x01 with script := [.draw] }) = some ([], 0) := by decide

/-- 30 R105: `KEY` alone is `WR KEYLEN, 0`. -/
theorem test_script_key_alone : scriptKey [] = [.host (.wr .reg 2 0)] := by decide

/-! ## The first step from reset runs the placed command -/

theorem test_step_hexenc : ending (step (State.reset.withFetchWord 8 0x01)) = some (0x02, 0) := by decide
theorem test_step_hexdec : ending (step (State.reset.withFetchWord 8 0x02)) = some (0x02, 0) := by decide
theorem test_step_encpw : ending (step (State.reset.withFetchWord 8 0x03)) = some (0x02, 32) := by decide
theorem test_step_decpw : ending (step (State.reset.withFetchWord 8 0x04)) = some (0x36, 0) := by decide
theorem test_step_cipher : ending (step (State.reset.withFetchWord 8 0x05)) = some (0x02, 0) := by decide

/-! ## Witnesses: states and operands that meet the hypotheses of each obligation -/

/-- A state with a one-byte key and a one-byte input. -/
def sKey : State := mk [0x6B] [0x78] draws0to15

/-- The same with no key. -/
def sNoKey : State := mk [] [0x78] draws0to15

/-- A state whose input is the four digits `"aBcD"`. -/
def sHex : State := mk [0x6B] [0x61, 0x42, 0x63, 0x44] []

/-- A state whose input has an odd length. -/
def sOdd : State := mk [0x6B] [0x41, 0x42, 0x43] []

/-- A state whose input is two characters that are no digits. -/
def sBad : State := mk [0x6B] [0x47, 0x47] []

/-- A state whose input is `2 * m` digits `0`. -/
def sDigits (key : List Byte) (m : Nat) : State := mk key (List.replicate (2 * m) 0x30) []

/-- A state in which nothing has written the one input cell and the one key cell. -/
def sUnwritten : State := { State.reset with keybuf := [], keylen := 1, inlen := 1 }

/-- A state with HEXENC in flight. -/
def sBusy : State := State.reset.start 0x01

/-- What OUT2IN leaves (30 R105). -/
def copyBack (t : State) : State := { t with inbuf := t.outbuf, inlen := t.outlen }

theorem sKey_key : KeyWritten sKey := State.key_isSome.1 (by decide)
theorem sKey_input : InputWritten sKey := State.input_isSome.1 (by decide)
theorem sNoKey_key : KeyWritten sNoKey := State.key_isSome.1 (by decide)
theorem sNoKey_input : InputWritten sNoKey := State.input_isSome.1 (by decide)
theorem sHex_input : InputWritten sHex := State.input_isSome.1 (by decide)
theorem sHex_digits : AllHex sHex := by unfold AllHex; decide
theorem sBad_no_digits : ¬ AllHex sBad := by unfold AllHex; decide

theorem sDigits_meets (m : Nat) (key : List Byte) (h : m ∈ [15, 16]) (hk : key ∈ [([] : List Byte), [0x6B]]) :
    KeyWritten (sDigits key m) ∧ InputWritten (sDigits key m) ∧ AllHex (sDigits key m) ∧ (sDigits key m).inlen = 2 * m := by
  have all : ∀ m ∈ [15, 16], ∀ key ∈ [([] : List Byte), [0x6B]],
      (sDigits key m).key.isSome = true ∧ (sDigits key m).input.isSome = true ∧ AllHex (sDigits key m) ∧
      (sDigits key m).inlen = 2 * m := by unfold AllHex; decide
  obtain ⟨hkey, hin, hx, hl⟩ := all m h key hk
  exact ⟨State.key_isSome.1 hkey, State.input_isSome.1 hin, hx, hl⟩

theorem sBusy_control : ControlInv sBusy where
  status_reachable := by decide
  busy_iff := by decide
  launched := by
    intro b hb
    obtain rfl : (0x01 : Byte) = b := Option.some.inj hb
    exact ⟨.hexenc, by decide, by decide⟩
  taken_le := by decide
  taken_by_encpw := by decide

/-- An idle state after a command that succeeded, with every buffer empty. -/
def sIdle : State := { State.reset with keybuf := [], keylen := 0, status := 0x02 }

theorem sIdle_control : ControlInv sIdle where
  status_reachable := by decide
  busy_iff := by decide
  launched := fun _ hb => nomatch hb
  taken_le := by decide
  taken_by_encpw := by decide

theorem sIdle_buffers : BufferInv sIdle where
  keybuf_wf := by decide
  keybuf_room := by decide
  keylen_le := Nat.zero_le _
  inbuf_wf := by decide
  inbuf_room := by decide
  inlen_le := Nat.zero_le _
  outbuf_wf := by decide
  outbuf_defined := fun _ => rfl
  outlen_le := Nat.zero_le _

theorem witness_DecodeEncodeAgree : Instr.hexenc.wf = true ∧ Instr.cipher.wf = true ∧ decodeByte 0x05 = .ok .cipher := by decide

theorem witness_ReservedCodesFault :
    (∀ b ∈ ([0x06, 0xFF] : List Byte), 0x06 ≤ b.toNat) ∧ busyBit State.reset.status = false := by decide

theorem witness_WriteCmdStartsCommand :
    busyBit sKey.status = false ∧ InputWritten sKey ∧ (usesKey .cipher = true → KeyWritten sKey) ∧
    busyBit sUnwritten.status = false ∧ InputWritten { sUnwritten with inlen := 0 } ∧ usesKey .hexenc = false :=
  ⟨by decide, sKey_input, fun _ => sKey_key, by decide, fun _ h => absurd h (Nat.not_lt_zero _), by decide⟩

theorem witness_StepRunsDecodedCommand :
    sBusy.command = some 0x01 ∧ decodeByte 0x01 = .ok .hexenc ∧ EngineNext sBusy ∧
    EngineNext { sBusy with script := [.engine, .reset] } :=
  ⟨rfl, by decide, .inl rfl, .inr ⟨[.reset], rfl⟩⟩

theorem witness_StepRunsPlacedWord : decodeTableWord 8 0x01 = some .hexenc ∧ decodeTableWord 8 0x05 = some .cipher := by decide

theorem witness_IdleEngineExecutesNothing : State.reset.command = none ∧ State.reset.script = [] := ⟨rfl, rfl⟩

theorem witness_StartedCommandEnds : ControlInv sBusy ∧ busyBit sBusy.status = true ∧ EngineNext sBusy :=
  ⟨sBusy_control, by decide, .inl rfl⟩

theorem witness_StatusFields :
    (0x01 : Byte) ∈ statusReachable ∧ busyBit 0x01 = true ∧ (0x16 : Byte) ∈ statusReachable ∧ errBit 0x16 = true ∧
    (0x46 : Byte) ∈ statusReachable ∧ errBit 0x46 = true ∧ (0x02 : Byte) ∈ statusReachable ∧ errBit 0x02 = false := by decide

theorem witness_CommandHasOneOfTwoOutcomes :
    (∃ t, exec .cipher sKey = .next t ∧ t.status = 0x02) ∧ ∃ t, exec .cipher sNoKey = .next t ∧ t.status = 0x16 :=
  ⟨⟨_, rfl, rfl⟩, ⟨_, rfl, rfl⟩⟩

theorem witness_CommandRunsExactlyOnWrittenInput :
    (InputWritten sKey ∧ (usesKey .encpw = true → KeyWritten sKey)) ∧
    ¬ (InputWritten sUnwritten ∧ (usesKey .encpw = true → KeyWritten sUnwritten)) ∧
    ¬ (InputWritten { sUnwritten with inlen := 0 } ∧
        (usesKey .encpw = true → KeyWritten { sUnwritten with inlen := 0 })) := by
  refine ⟨⟨sKey_input, fun _ => sKey_key⟩, fun h => ?_, fun h => ?_⟩
  · exact absurd (h.1 0 (by decide)) (by decide)
  · exact absurd (h.2 rfl 0 (by decide)) (by decide)

theorem witness_WhichCommandRaisesWhichKind :
    (∃ t, exec .hexenc sKey = .next t) ∧ (∃ t, exec .hexdec sHex = .next t) ∧ (∃ t, exec .encpw sKey = .next t) ∧
    (∃ t, exec .decpw sHex = .next t) ∧ (∃ t, exec .cipher sKey = .next t) ∧
    (∀ i, decodeByte 0x06 ≠ .ok i) ∧ busyBit State.reset.status = false ∧
    ∃ t, hostAccess (.wr .reg 0 (0x06 : Byte).toNat) State.reset = .next t :=
  ⟨⟨_, rfl⟩, ⟨_, rfl⟩, ⟨_, rfl⟩, ⟨_, rfl⟩, ⟨_, rfl⟩, fun i => by cases i <;> decide, by decide, ⟨_, rfl⟩⟩

theorem witness_LengthRelations :
    (∃ t, exec .hexenc sKey = .next t) ∧
    (∃ t, exec .hexdec sHex = .next t ∧ errBit t.status = false) ∧
    (∃ t, exec .hexdec sOdd = .next t ∧ sOdd.inlen % 2 = 1) ∧
    (∃ t, exec .encpw sKey = .next t ∧ errBit t.status = false ∧ sKey.keylen ≠ 0) ∧
    (∃ t, exec .decpw (sDigits [0x6B] 16) = .next t ∧ errBit t.status = false) ∧
    (∃ t, exec .decpw sOdd = .next t ∧ sOdd.inlen % 2 = 1) ∧
    (∃ t, exec .decpw (sDigits [0x6B] 15) = .next t ∧ (sDigits [0x6B] 15).inlen % 2 = 0 ∧
      (sDigits [0x6B] 15).inlen / 2 < 16 ∧ AllHex (sDigits [0x6B] 15) ∧ (sDigits [0x6B] 15).keylen ≠ 0) ∧
    ∃ t, exec .cipher sKey = .next t ∧ errBit t.status = false ∧ sKey.keylen ≠ 0 :=
  ⟨⟨_, rfl⟩, ⟨_, rfl, rfl⟩, ⟨_, rfl, by decide⟩, ⟨_, rfl, rfl, by decide⟩, ⟨_, rfl, rfl⟩, ⟨_, rfl, by decide⟩,
    ⟨_, rfl, by decide, by decide, by unfold AllHex; decide, by decide⟩, ⟨_, rfl, rfl, by decide⟩⟩

theorem witness_RetryFaultsAgain :
    ∃ t, exec .hexdec sBad = .next t ∧ errBit t.status = true ∧ SameKey sBad t ∧ SameInput sBad t :=
  ⟨_, rfl, rfl, ⟨rfl, fun _ _ => rfl⟩, ⟨rfl, fun _ _ => rfl⟩⟩

theorem witness_CommandsPreserveInputs :
    (∃ t, exec .encpw sKey = .next t) ∧ ∃ t, exec .decpw sBad = .next t := ⟨⟨_, rfl⟩, ⟨_, rfl⟩⟩

theorem witness_HexCommandsFrame :
    (∃ t, exec .hexenc sKey = .next t) ∧ (∃ t, exec .hexdec sHex = .next t) ∧ ∃ t, exec .hexdec sBad = .next t :=
  ⟨⟨_, rfl⟩, ⟨_, rfl⟩, ⟨_, rfl⟩⟩

theorem witness_CipherAndDecpwFrame :
    (∃ t, exec .cipher sKey = .next t) ∧ (∃ t, exec .decpw (sDigits [0x6B] 16) = .next t) ∧
    ∃ t, exec .cipher sNoKey = .next t := ⟨⟨_, rfl⟩, ⟨_, rfl⟩, ⟨_, rfl⟩⟩

theorem witness_EncpwFrame : (∃ t, exec .encpw sKey = .next t) ∧ ∃ t, exec .encpw sNoKey = .next t := ⟨⟨_, rfl⟩, ⟨_, rfl⟩⟩

/-- Another state with the operands of `sKey`, draws among them, and another past. -/
theorem witness_OutcomeDependsOnOperandsOnly :
    SameInput sKey { sKey with status := 0x26, outlen := 5, cipher := resetCipher 7 } ∧
    SameKey sKey { sKey with status := 0x26, outlen := 5, cipher := resetCipher 7 } ∧
    (∀ m, m < 16 → drawAt { sKey with status := 0x26, outlen := 5, cipher := resetCipher 7 } m = drawAt sKey m) ∧
    ∃ t, exec .encpw sKey = .next t :=
  ⟨⟨rfl, fun _ _ => rfl⟩, ⟨rfl, fun _ _ => rfl⟩, fun _ _ => rfl, ⟨_, rfl⟩⟩

/-- The least and the greatest code of each range of 30 R98, and the codes just outside. -/
theorem witness_HexValueTable :
    hexValue 0x30 = some 0 ∧ hexValue 0x39 = some 9 ∧ hexValue 0x41 = some 10 ∧ hexValue 0x46 = some 15 ∧
    hexValue 0x61 = some 10 ∧ hexValue 0x66 = some 15 ∧
    ∀ c ∈ ([0x00, 0x2F, 0x3A, 0x40, 0x47, 0x60, 0x67, 0xFF] : List Byte), hexValue c = none := by decide

theorem witness_HexencWritesHexString : InputWritten sKey ∧ 0 < sKey.inlen := ⟨sKey_input, by decide⟩

theorem witness_HexdecWritesBytes : InputWritten sHex ∧ sHex.inlen % 2 = 0 ∧ AllHex sHex ∧ 1 < sHex.inlen / 2 :=
  ⟨sHex_input, by decide, sHex_digits, by decide⟩

theorem witness_HexdecRaisesMalformedHex :
    InputWritten sOdd ∧ sOdd.inlen % 2 = 1 ∧ InputWritten sBad ∧ ¬ AllHex sBad :=
  ⟨State.input_isSome.1 (by decide), by decide, State.input_isSome.1 (by decide), sBad_no_digits⟩

theorem witness_HexRoundTrip :
    InputWritten sKey ∧ ∃ t, exec .hexenc sKey = .next t ∧ CopiedBack t (copyBack t) :=
  ⟨sKey_input, _, rfl, rfl, fun _ _ => rfl⟩

theorem witness_HexCaseNormalisation :
    hexDec [0x61, 0x42] = .ok [0xAB] ∧ hexDec [0x41, 0x39] = .ok [0xA9] ∧
    ∀ c ∈ ([0x41, 0x39] : List Byte), ¬ (0x61 ≤ c.toNat ∧ c.toNat ≤ 0x66) := by decide

theorem witness_HexOutputIsUpperCase :
    (∃ t, exec .hexenc sKey = .next t ∧ 0 < t.outlen) ∧ ∃ t, exec .encpw sKey = .next t ∧ 0 < t.outlen :=
  ⟨⟨_, rfl, by decide⟩, ⟨_, rfl, Nat.succ_pos _⟩⟩

theorem witness_SchedRejectsOnlyEmptyKey :
    ([0x6B] : List Byte).length ≠ 0 ∧ usesKey .cipher = true ∧ sNoKey.keylen = 0 ∧ ∃ t, exec .cipher sNoKey = .next t :=
  ⟨by decide, rfl, rfl, _, rfl⟩

theorem witness_SchedIteratesAsStated :
    1 ≤ ([0x6B] : List Byte).length ∧ (0x00 : Byte).toNat = 0 ∧ (0xFF : Byte).toNat = 255 := by decide

theorem witness_TableIsPermutation :
    (∃ c, sched [0x6B] = .ok c) ∧ SameKey sKey (sKey.raise .invalidKey) ∧ sKey.key = some [0x6B] ∧
    (sKey.raise .invalidKey).key = some [0x6B] :=
  ⟨⟨_, rfl⟩, ⟨rfl, fun _ _ => rfl⟩, by decide, by decide⟩

/-- Keys of 257 and 258 bytes that agree on the first 256, and the last byte of a key of 256. -/
theorem witness_SchedKeyBytesThatMatter :
    256 ≤ (List.replicate 256 (0x41 : Byte) ++ [0x41]).length ∧
    256 ≤ (List.replicate 256 (0x41 : Byte) ++ [0xAA, 0xBB]).length ∧
    (List.replicate 256 (0x41 : Byte) ++ [0x41]).take 256 = (List.replicate 256 (0x41 : Byte) ++ [0xAA, 0xBB]).take 256 ∧
    1 ≤ 2 ∧ (List.replicate 256 (0x41 : Byte)).length ≤ 256 ∧ 255 < (List.replicate 256 (0x41 : Byte)).length := by
  have all : ∀ n : Nat, n ≤ (List.replicate n (0x41 : Byte) ++ [0x41]).length ∧
      n ≤ (List.replicate n (0x41 : Byte) ++ [0xAA, 0xBB]).length ∧
      (List.replicate n (0x41 : Byte) ++ [0x41]).take n = (List.replicate n (0x41 : Byte) ++ [0xAA, 0xBB]).take n ∧
      (List.replicate n (0x41 : Byte)).length = n := fun n => by simp
  obtain ⟨h, h', ht, hl⟩ := all 256
  exact ⟨h, h', ht, by decide, Nat.le_of_eq hl, by rw [hl]; omega⟩

theorem witness_XformMaskIgnoresData :
    ([0x01, 0x02] : List Byte)[0]? = some 0x01 ∧ ([0x01, 0x03] : List Byte)[0]? = some 0x01 ∧
    (∃ o, (xform schedStart [0x01, 0x02]).1[0]? = some o) ∧ (∃ o, (xform schedStart [0x01, 0x03]).1[0]? = some o) ∧
    ([0x01, 0x02] : List Byte).take 1 = ([0x01, 0x03] : List Byte).take 1 ∧
    ([0x01, 0x02] : List Byte).length = ([0x01, 0x03] : List Byte).length :=
  ⟨rfl, rfl, ⟨_, rfl⟩, ⟨_, rfl⟩, rfl, rfl⟩

theorem witness_XformSelfInverse : ∃ c, sched [0x6B] = .ok c := ⟨_, rfl⟩

theorem witness_CipherWritesMaskedInput : KeyWritten sKey ∧ InputWritten sKey ∧ 1 ≤ sKey.keylen ∧ 0 < sKey.inlen :=
  ⟨sKey_key, sKey_input, by decide, by decide⟩

theorem witness_CipherTwiceIsIdentity :
    KeyWritten sKey ∧ InputWritten sKey ∧ 1 ≤ sKey.keylen ∧
    ∃ t, exec .cipher sKey = .next t ∧ CopiedBack t (copyBack t) ∧ SameKey sKey (copyBack t) :=
  ⟨sKey_key, sKey_input, by decide, _, rfl, ⟨rfl, fun _ _ => rfl⟩, rfl, fun _ _ => rfl⟩

theorem witness_EmptyKeyRaisesInvalidKey : InputWritten sNoKey ∧ sNoKey.keylen = 0 := ⟨sNoKey_input, rfl⟩

theorem witness_DigitAndAlphabetTables : 0 ≤ 15 ∧ 15 ≤ 15 := by decide

theorem witness_EncpwWritesCiphertext : KeyWritten sKey ∧ InputWritten sKey ∧ 1 ≤ sKey.keylen :=
  ⟨sKey_key, sKey_input, by decide⟩

/-- Two runs under one key and one password with different draws. -/
theorem witness_EncpwSaltPositions :
    SameKey sKey (mk [0x6B] [0x78] []) ∧ SameInput sKey (mk [0x6B] [0x78] []) ∧ sKey.keylen ≠ 0 ∧ 18 < 18 + 2 * sKey.inlen ∧
    (∃ t, exec .encpw sKey = .next t) ∧ ∃ v, exec .encpw (mk [0x6B] [0x78] []) = .next v :=
  ⟨⟨rfl, fun _ _ => rfl⟩, ⟨rfl, fun _ _ => rfl⟩, by decide, by decide, ⟨_, rfl⟩, ⟨_, rfl⟩⟩

/-- At the least length that is not too short. -/
theorem witness_DecpwWritesStrippedBytes :
    KeyWritten (sDigits [0x6B] 16) ∧ InputWritten (sDigits [0x6B] 16) ∧ 1 ≤ (sDigits [0x6B] 16).keylen ∧
    (sDigits [0x6B] 16).inlen % 2 = 0 ∧ AllHex (sDigits [0x6B] 16) ∧ 16 ≤ (sDigits [0x6B] 16).inlen / 2 := by
  obtain ⟨hk, hi, hx, hl⟩ := sDigits_meets 16 [0x6B] (by decide) (by decide)
  exact ⟨hk, hi, by decide, by rw [hl], hx, by rw [hl]⟩

/-- One state for each clause, with the conditions of the later ones met as well where they can be. -/
theorem witness_DecpwFaultOrder :
    (KeyWritten sOdd ∧ InputWritten sOdd ∧ sOdd.inlen % 2 = 1) ∧ (KeyWritten sBad ∧ InputWritten sBad ∧ ¬ AllHex sBad) ∧
    (KeyWritten (sDigits [] 15) ∧ InputWritten (sDigits [] 15) ∧ (sDigits [] 15).inlen % 2 = 0 ∧ AllHex (sDigits [] 15) ∧
      (sDigits [] 15).keylen = 0) ∧
    (KeyWritten (sDigits [0x6B] 15) ∧ InputWritten (sDigits [0x6B] 15) ∧ (sDigits [0x6B] 15).inlen % 2 = 0 ∧
      AllHex (sDigits [0x6B] 15) ∧ 1 ≤ (sDigits [0x6B] 15).keylen ∧ (sDigits [0x6B] 15).inlen / 2 < 16) := by
  obtain ⟨ek, ei, ex, el⟩ := sDigits_meets 15 [] (by decide) (by decide)
  obtain ⟨hk, hi, hx, hl⟩ := sDigits_meets 15 [0x6B] (by decide) (by decide)
  exact ⟨⟨State.key_isSome.1 (by decide), State.input_isSome.1 (by decide), by decide⟩,
    ⟨State.key_isSome.1 (by decide), State.input_isSome.1 (by decide), sBad_no_digits⟩,
    ⟨ek, ei, by rw [el], ex, rfl⟩, ⟨hk, hi, by rw [hl], hx, by decide, by rw [hl]; decide⟩⟩

theorem witness_DecpwLengthCheck :
    (∃ t, exec .decpw (sDigits [0x6B] 15) = .next t) ∧
    (∃ t, exec .decpw (sDigits [0x6B] 16) = .next t) ∧ (sDigits [0x6B] 16).inlen = 32 ∧ AllHex (sDigits [0x6B] 16) ∧
    (sDigits [0x6B] 16).keylen ≠ 0 :=
  ⟨⟨_, rfl⟩, ⟨_, rfl⟩, rfl, (sDigits_meets 16 [0x6B] (by decide) (by decide)).2.2.1, by decide⟩

theorem witness_PasswordRoundTrip :
    KeyWritten sKey ∧ InputWritten sKey ∧ 1 ≤ sKey.keylen ∧
    ∃ t, exec .encpw sKey = .next t ∧ CopiedBack t (copyBack t) ∧ SameKey sKey (copyBack t) :=
  ⟨sKey_key, sKey_input, by decide, _, rfl, ⟨rfl, fun _ _ => rfl⟩, rfl, fun _ _ => rfl⟩

/-- The first and the last cell of each buffer. -/
theorem witness_HostCellWritesLand :
    busyBit State.reset.status = false ∧ 0 < Config.keyMax ∧ Config.keyMax - 1 < Config.keyMax ∧ 0 < Config.inMax ∧
    Config.inMax - 1 < Config.inMax := by
  refine ⟨by decide, ?_, ?_, ?_, ?_⟩ <;> simp only [Config.keyMax, Config.inMax] <;> omega

/-- 0, the capacity, and one more. -/
theorem witness_HostLengthWrites :
    busyBit State.reset.status = false ∧ 0 ≤ Config.keyMax ∧ Config.keyMax ≤ Config.keyMax ∧
    Config.keyMax < Config.keyMax + 1 ∧ Config.inMax ≤ Config.inMax ∧ Config.inMax < Config.inMax + 1 :=
  ⟨by decide, Nat.zero_le _, Nat.le_refl _, Nat.lt_succ_self _, Nat.le_refl _, Nat.lt_succ_self _⟩

theorem witness_HostRegisterReads : busyBit State.reset.status = false := by decide

/-- Below OUTLEN, and at OUTLEN. -/
theorem witness_HostOutbufReads :
    busyBit (State.reset.succeed [0xAB]).status = false ∧ 0 < Config.outMax ∧ 0 < (State.reset.succeed [0xAB]).outlen ∧
    Memory.read (State.reset.succeed [0xAB]).outbuf 0 = some 0xAB ∧ 1 < Config.outMax ∧
    (State.reset.succeed [0xAB]).outlen ≤ 1 := by
  refine ⟨by decide, ?_, by decide, by decide, ?_, by decide⟩ <;> simp only [Config.outMax, Config.inMax] <;> omega

theorem witness_BusyEngineRefusesAccess :
    busyBit sBusy.status = true ∧ isStatusRead (.wr .reg 0 0x01) = false ∧ isStatusRead (.rd .outbuf 0) = false ∧
    isStatusRead (.rd .reg 2) = false := by decide

theorem witness_OutsideInterfaceStops :
    busyBit State.reset.status = false ∧ 5 ≤ 5 ∧ Config.keyMax ≤ Config.keyMax ∧ Config.inMax ≤ Config.inMax ∧
    Config.outMax ≤ Config.outMax :=
  ⟨by decide, Nat.le_refl _, Nat.le_refl _, Nat.le_refl _, Nat.le_refl _⟩

/-- No event to come; an event that is allowed; one that is not. -/
theorem witness_StepCompletesExactlyWhenAllowed :
    ControlInv sIdle ∧ sIdle.script = [] ∧ ControlInv { sIdle with script := [.host (.rd .reg 1)] } ∧
    eventAllowed (.host (.rd .reg 1)) sIdle = true ∧ eventAllowed (.host (.rd .reg 0)) sIdle = false :=
  ⟨sIdle_control, rfl, ⟨by decide, by decide, (fun _ hb => nomatch hb), by decide, by decide⟩, by decide, by decide⟩

theorem witness_ResultStableUntilNextCommand :
    isCmdWrite (.host (.rd .reg 4)) = false ∧ Event.host (.rd .reg 4) ≠ .reset ∧ State.reset.command = none ∧
    ∃ t, step { State.reset with script := [.host (.rd .reg 4)] } = .next t :=
  ⟨by decide, by decide, rfl, _, rfl⟩

/-- Steps whose event is not the reset input: one changes KEYLEN, one takes a draw ahead, one runs ENCPW. -/
theorem witness_EachRegisterHasItsWriters :
    (∃ t, step { sEncpw with script := [.draw] } = .next t ∧ t.drawn ≠ sEncpw.drawn) ∧
    (∃ t, step { State.reset with script := [.host (.wr .reg 2 0)] } = .next t ∧ t.keylen ≠ State.reset.keylen) ∧
    ∃ t, step (sKey.withFetchWord 8 0x03) = .next t ∧ t.drawn ≠ sKey.drawn ∧ t.status ≠ (sKey.withFetchWord 8 0x03).status :=
  ⟨⟨_, rfl, by decide⟩, ⟨_, rfl, by decide⟩, ⟨_, rfl, by decide, by decide⟩⟩

theorem witness_ResetInputAbandonsCommand :
    ({ sBusy with script := [.reset] } : State).script = .reset :: [] ∧
    ({ sEncpw with script := [.draw, .reset] } : State).script = .draw :: .reset :: [] ∧
    sEncpw.command = some (encode .encpw) ∧ sEncpw.taken.length < 16 ∧
    ({ sEncpw with taken := draws0to15.take 15 } : State).taken.length < 16 := ⟨rfl, rfl, rfl, by decide, by decide⟩

theorem witness_StepKeepsBufferInv : BufferInv sIdle ∧ ∃ t, step sIdle = .next t := ⟨sIdle_buffers, _, rfl⟩

theorem witness_LengthsFitTheirRegisters : BufferInv sIdle := sIdle_buffers

theorem witness_StepKeepsControlInv : ControlInv sBusy ∧ ∃ t, step sBusy = .next t := ⟨sBusy_control, _, rfl⟩

end Sys2Proof.Tests
end

section
/-! The scope's two statements (00 R9, R12): the parameters and the widths of the length registers, and the two ways a command
ends. -/

namespace Sys2Proof.Machine

/-! ## The parameters (00 R9) -/

theorem eight_le_keyMax : 8 ≤ Config.keyMax := Nat.le_add_left ..

theorem thirtyTwo_le_inMax : 32 ≤ Config.inMax := Nat.le_add_left ..

/-- The constraint of 00 R9 on `LEN_W`: `log2 n + 1` bits hold `n`, and the room above that only adds bits. -/
theorem max_lt_two_pow_lenW : max Config.keyMax Config.outMax < 2 ^ Config.lenW :=
  calc max Config.keyMax Config.outMax
    _ < 2 ^ ((max Config.keyMax Config.outMax).log2 + 1) := Nat.lt_log2_self
    _ ≤ 2 ^ Config.lenW := Nat.pow_le_pow_right (by decide) (Nat.le_add_right ..)

theorem lt_two_pow_lenW_of_le_keyMax {n : Nat} (h : n ≤ Config.keyMax) : n < 2 ^ Config.lenW :=
  (h.trans (le_max_left ..)).trans_lt max_lt_two_pow_lenW

theorem lt_two_pow_lenW_of_le_outMax {n : Nat} (h : n ≤ Config.outMax) : n < 2 ^ Config.lenW :=
  (h.trans (le_max_right ..)).trans_lt max_lt_two_pow_lenW

/-- An input length is below `OUT_MAX`, so `LEN_W` need not mention `IN_MAX` (10 R38). -/
theorem inMax_le_outMax : Config.inMax ≤ Config.outMax := by
  unfold Config.outMax
  omega

/-- Settles O60: `LEN_W` holds `KEY_MAX` and `OUT_MAX`, and `IN_MAX` is at most `OUT_MAX`. -/
theorem lengthsFitTheirRegisters : Obligations.LengthsFitTheirRegisters :=
  ⟨eight_le_keyMax, thirtyTwo_le_inMax, rfl, max_lt_two_pow_lenW, fun _ hs =>
    ⟨lt_two_pow_lenW_of_le_keyMax hs.keylen_le,
     lt_two_pow_lenW_of_le_outMax (hs.inlen_le.trans inMax_le_outMax),
     lt_two_pow_lenW_of_le_outMax hs.outlen_le⟩⟩

/-! ## The two ways a command ends (00 R12) -/

/-- After a success every OUTBUF cell below OUTLEN holds a value (10 R37). -/
theorem State.succeed_outbuf_isSome (s : State) (out : List Byte) {x : Nat} (h : x < (s.succeed out).outlen) :
    (Memory.read (s.succeed out).outbuf x).isSome = true := by
  simpa using h

/-- No command raises IllegalCommand: that kind belongs to the reserved codes (60 R215, R221). -/
theorem illegalCommand_notMem_kindsOf (i : Instr) : FaultKind.illegalCommand ∉ kindsOf i := by
  cases i <;> decide

theorem statusFault_mem_of_mem_kindsOf {i : Instr} {k : FaultKind} (h : k ∈ kindsOf i) :
    statusFault k ∈ [0x16, 0x26, 0x36] := by
  cases k with
  | invalidKey | malformedHex | payloadTooShort => simp
  | illegalCommand => exact absurd h (illegalCommand_notMem_kindsOf i)

/-- Settles O11: every command ends in `State.finish`, with a result or with a fault of one of its own kinds. -/
theorem commandHasOneOfTwoOutcomes : Obligations.CommandHasOneOfTwoOutcomes := by
  intro i s t h
  obtain ⟨c, r, n, rfl, -, -, -, hkind⟩ := exec_finish h
  cases r with
  | ok out => exact .inl ⟨rfl, fun x hx => State.succeed_outbuf_isSome _ out hx⟩
  | error k => exact .inr ⟨statusFault_mem_of_mem_kindsOf (hkind k rfl), rfl⟩

end Sys2Proof.Machine
end

section
/-! The family of 10_state.md: what a command leaves unchanged, who writes which register, the host port, and the two invariants
of the machine, each kept by every step. -/

namespace Sys2Proof.Machine

/-! ## Frames of the commands (10 R51), all from `exec_finish` -/

theorem exec_commandFrame {i : Instr} {s t : State} (h : exec i s = .next t) : CommandFrame s t := by
  obtain ⟨c, r, n, rfl, -⟩ := exec_finish h
  constructor <;> simp

theorem exec_inputs {i : Instr} {s t : State} (h : exec i s = .next t) :
    t.keybuf = s.keybuf ∧ t.keylen = s.keylen ∧ t.inbuf = s.inbuf ∧ t.inlen = s.inlen := by
  obtain ⟨c, r, n, rfl, -⟩ := exec_finish h
  simp

/-- ENCPW uses 16 draws, those taken ahead first (43 R183). -/
theorem execEncpw_draws {s t : State} (h : exec .encpw s = .next t) :
    t.taken = s.taken.drop 16 ∧ t.rndQueue = s.rndQueue.drop (16 - s.taken.length) ∧
      t.drawn = s.drawn + (16 - s.taken.length) := by
  obtain ⟨c, r, n, rfl, rfl, -⟩ := exec_finish h
  simp

/-- No command but ENCPW takes a draw (41 R147, 42 R166, 43 R185). -/
theorem exec_draws_of_ne_encpw {i : Instr} {s t : State} (hi : i ≠ .encpw) (h : exec i s = .next t) :
    t.rndQueue = s.rndQueue ∧ t.drawn = s.drawn ∧ t.taken = s.taken := by
  obtain ⟨c, r, n, rfl, rfl, -⟩ := exec_finish h
  simp [hi]

/-- A command that does not use the key leaves T, I and J alone (log 10). -/
theorem exec_cipher_of_usesKey_eq_false {i : Instr} {s t : State} (hi : usesKey i = false) (h : exec i s = .next t) :
    t.cipher = s.cipher := by
  obtain ⟨c, r, n, rfl, -, hc, -⟩ := exec_finish h
  simpa using hc (.inl hi)

theorem exec_command {i : Instr} {s t : State} (h : exec i s = .next t) : t.command = s.command :=
  (exec_commandFrame h).command

/-- Every command leaves STATUS at a reachable value with BUSY = 0 (10 R41). -/
theorem exec_status {i : Instr} {s t : State} (h : exec i s = .next t) :
    t.status ∈ statusReachable ∧ busyBit t.status = false := by
  obtain ⟨c, r, n, rfl, -⟩ := exec_finish h
  cases r with
  | ok out => simp [statusReachable]
  | error k => cases k <;> simp [statusReachable]

/-- Settles O12: the two answers of `exec_cases`, told apart by whether the cells of the launch premise hold values. -/
theorem commandRunsExactlyOnWrittenInput : Obligations.CommandRunsExactlyOnWrittenInput := by
  intro i s
  rw [← inputsDefined_iff]
  obtain ⟨hdef, hnext⟩ | ⟨hdef, hrefused⟩ := exec_cases i s
  · exact ⟨fun _ => hnext, fun hn => absurd hdef hn⟩
  · exact ⟨fun hd => absurd hd (by simp [hdef]), fun _ => hrefused⟩

/-- Settles O16: the input half of the frame of every command. -/
theorem commandsPreserveInputs : Obligations.CommandsPreserveInputs := fun _ _ _ h =>
  have hf := exec_commandFrame h
  ⟨hf.keybuf, hf.keylen, hf.inbuf, hf.inlen⟩

/-- Settles O17: HEXENC and HEXDEC do not use the key and are not ENCPW. -/
theorem hexCommandsFrame : Obligations.HexCommandsFrame := by
  intro i s t hi h
  have hkey : usesKey i = false := by obtain rfl | rfl := hi <;> rfl
  have hne : i ≠ .encpw := by rintro rfl; cases hkey
  exact ⟨exec_commandFrame h, exec_cipher_of_usesKey_eq_false hkey h, exec_draws_of_ne_encpw hne h⟩

/-- Settles O18: CIPHER and DECPW are not ENCPW. -/
theorem cipherAndDecpwFrame : Obligations.CipherAndDecpwFrame := by
  intro i s t hi h
  have hne : i ≠ .encpw := by obtain rfl | rfl := hi <;> decide
  exact ⟨exec_commandFrame h, exec_draws_of_ne_encpw hne h⟩

/-- Settles O19: the frame of every command, and the 16 draws of SALT. -/
theorem encpwFrame : Obligations.EncpwFrame := fun _ _ h => ⟨exec_commandFrame h, execEncpw_draws h⟩

/-! ## Who writes which register (10 R30) -/

/-- The column "written by" of 10 R30 for a step from `s` to `t` whose event is `e`, or that is the engine's turn with no event to
come. -/
structure WritesOf (e : Option Event) (s t : State) : Prop where
  keybuf : t.keybuf ≠ s.keybuf → ∃ x v, e = some (.host (.wr .keybuf x v))
  keylen : t.keylen ≠ s.keylen → ∃ n, e = some (.host (.wr .reg 2 n))
  inbuf : t.inbuf ≠ s.inbuf → ∃ x v, e = some (.host (.wr .inbuf x v))
  inlen : t.inlen ≠ s.inlen → ∃ n, e = some (.host (.wr .reg 3 n))
  cipher : t.cipher ≠ s.cipher → (e = none ∨ e = some .engine) ∧ ∃ i, s.command = some (encode i) ∧ usesKey i = true
  drawn : t.drawn ≠ s.drawn → (e = none ∨ e = some .engine ∨ e = some .draw) ∧ s.command = some (encode .encpw)
  result : t.outbuf ≠ s.outbuf ∨ t.outlen ≠ s.outlen ∨ t.status ≠ s.status →
    ((e = none ∨ e = some .engine) ∧ s.command ≠ none) ∨ ∃ c, e = some (.host (.wr .reg 0 c))

theorem engineTurn_writes {e : Option Event} {s t : State} (he : e = none ∨ e = some .engine) (h : engineTurn s = .next t) :
    WritesOf e s t := by
  obtain ⟨-, rfl⟩ | ⟨b, hb, ⟨i, hi, hx⟩ | ⟨k, -, rfl⟩⟩ := engineTurn_next h
  · constructor <;> simp
  · have hcode : s.command = some (encode i) := decodeByte_ok hi ▸ hb
    obtain ⟨hkeybuf, hkeylen, hinbuf, hinlen⟩ := exec_inputs hx
    have hcipher : usesKey i = false → t.cipher = s.cipher := fun hkey =>
      exec_cipher_of_usesKey_eq_false (s := { s with command := none }) hkey hx
    have hdrawn : i ≠ .encpw → t.drawn = s.drawn := fun hne => (exec_draws_of_ne_encpw hne hx).2.1
    exact {
      keybuf := absurd hkeybuf
      keylen := absurd hkeylen
      inbuf := absurd hinbuf
      inlen := absurd hinlen
      cipher := fun hne => ⟨he, i, hcode, by simpa using mt hcipher hne⟩
      drawn := fun hne => ⟨he.imp_right .inl, not_not.1 (mt hdrawn hne) ▸ hcode⟩
      result := fun _ => .inl ⟨he, by simp [hb]⟩ }
  · constructor <;> simp [he, hb]

/-- Each action of a host access changes at most the register it names; every other clause has a false premise. -/
theorem hostAccess_writes {a : Access} {s t : State} (h : hostAccess a s = .next t) : WritesOf (some (.host a)) s t := by
  obtain ⟨rfl, rfl⟩ | ⟨-, hacts⟩ := hostAccess_next h
  · constructor <;> simp
  · obtain ⟨x, v, rfl, -, -, rfl⟩ | ⟨x, v, rfl, -, -, rfl⟩ | ⟨n, rfl, -, rfl⟩ | ⟨n, rfl, -, rfl⟩ |
      ⟨c, rfl, -, ⟨k, -, rfl⟩ | ⟨i, -, -, rfl⟩⟩ | ⟨x, d, n, rfl, -, rfl⟩ | ⟨n, d, rfl, -, -, rfl⟩ := hacts <;>
    constructor <;> simp

theorem engineDraw_writes {s t : State} (h : engineDraw s = .next t) : WritesOf (some .draw) s t := by
  obtain ⟨hc, -, rfl⟩ | rfl := engineDraw_next h
  · constructor <;> simp [hc]
  · constructor <;> simp

theorem sourceAnswers_writes {draws : List (BitVec 6)} {s t : State} (h : sourceAnswers draws s = .next t) :
    WritesOf (some (.source draws)) s t := by
  obtain ⟨q, rfl⟩ := sourceAnswers_next h
  constructor <;> simp

theorem event_writes {e : Event} {s t : State} (he : e ≠ .reset) (h : event e s = .next t) : WritesOf (some e) s t := by
  cases e with
  | host a => exact hostAccess_writes h
  | engine => exact engineTurn_writes (.inr rfl) h
  | draw => exact engineDraw_writes h
  | reset => exact absurd rfl he
  | source draws => exact sourceAnswers_writes h

theorem step_writes {s t : State} (he : s.script.head? ≠ some .reset) (h : step s = .next t) :
    WritesOf s.script.head? s t := by
  obtain ⟨hs, hturn⟩ | ⟨e, rest, hs, hev⟩ := step_next h
  · exact engineTurn_writes (.inl (by simp [hs])) hturn
  · rw [hs] at he ⊢
    obtain ⟨hkeybuf, hkeylen, hinbuf, hinlen, hcipher, hdrawn, hresult⟩ := event_writes (by simpa using he) hev
    exact ⟨hkeybuf, hkeylen, hinbuf, hinlen, hcipher, hdrawn, hresult⟩

/-- The engine has the turn when no event is to come or when the turn is the next event. -/
theorem engineNext_iff {s : State} : EngineNext s ↔ s.script.head? = none ∨ s.script.head? = some .engine := by
  rw [EngineNext, List.head?_eq_none_iff, List.head?_eq_some_iff]

/-- Settles O54: what each event may write, with the engine's turn in the words of `EngineNext`. -/
theorem eachRegisterHasItsWriters : Obligations.EachRegisterHasItsWriters := by
  intro s t h he
  obtain ⟨hkeybuf, hkeylen, hinbuf, hinlen, hcipher, hdrawn, hresult⟩ := step_writes he h
  rw [← or_assoc] at hdrawn
  rw [← engineNext_iff] at hcipher hdrawn hresult
  exact ⟨hkeybuf, hkeylen, hinbuf, hinlen, hcipher, hdrawn, hresult⟩

/-! ## The host port of an idle engine (10 R35 to R37, R39, R48) -/

theorem hostAccess_wr_of_idle {s : State} (hs : busyBit s.status = false) (space : Space) (number value : Nat) :
    hostAccess (.wr space number value) s = hostWrite space number value s := by
  simp [hostAccess, hs]

theorem hostAccess_rd_of_idle {s : State} (hs : busyBit s.status = false) (space : Space) (number : Nat) :
    hostAccess (.rd space number) s = hostRead space number s := by
  simp [hostAccess, hs]

/-- A register number from 5 up names no register (20 R67). -/
theorem writeReg_of_five_le {n : Nat} (h : 5 ≤ n) (v : Nat) (s : State) : writeReg n v s = .fault .noSuchLocation := by
  obtain ⟨m, rfl⟩ := Nat.exists_eq_add_of_le' h
  rfl

theorem readReg_of_five_le {n : Nat} (h : 5 ≤ n) (s : State) : readReg n s = .fault .noSuchLocation := by
  obtain ⟨m, rfl⟩ := Nat.exists_eq_add_of_le' h
  rfl

theorem launch_encode {i : Instr} {s : State} (h : inputsDefined i s = true) :
    launch (encode i) s = .next (s.start (encode i)) := by
  simp [launch, h]

/-- Settles O4: the launch premise holds, so the write is the start of the command. -/
theorem writeCmdStartsCommand : Obligations.WriteCmdStartsCommand := by
  intro i s hidle hin hkey
  rw [hostAccess_wrCmd hidle, launch_encode (inputsDefined_iff.2 ⟨hin, hkey⟩)]
  rfl

/-- Settles O47: the two length writes, each by whether `n` is above the capacity. -/
theorem hostLengthWrites : Obligations.HostLengthWrites := by
  intro s n hidle
  simp only [hostAccess_wr_of_idle hidle, hostWrite, writeReg, writeKeylen, writeInlen]
  exact ⟨fun h => if_neg (not_lt.2 h), fun h => if_pos h, fun h => if_neg (not_lt.2 h), fun h => if_pos h⟩

/-- Settles O49: below OUTLEN the cell is read, from OUTLEN up a free value stands for it. -/
theorem hostOutbufReads : Obligations.HostOutbufReads := by
  intro s x hidle hx
  simp only [hostAccess_rd_of_idle hidle, hostRead, readOutCell, if_neg (not_le.2 hx)]
  refine ⟨fun v hlt hv => ?_, fun hge => ⟨Config.freeByte s.free, s.free + 1, ?_⟩⟩
  · simp only [if_pos hlt, hv]
    rfl
  · simp only [if_neg (not_lt.2 hge)]
    rfl

/-- Settles O51: the refusals stand in the port's tables as they are; the faults need the number or index out of range. -/
theorem outsideInterfaceStops : Obligations.OutsideInterfaceStops := by
  intro s n v hidle
  simp only [hostAccess_wr_of_idle hidle, hostAccess_rd_of_idle hidle]
  refine ⟨?_, rfl, ?_, rfl, rfl, fun h => ⟨writeReg_of_five_le h v s, readReg_of_five_le h s⟩,
    fun h => if_pos h, fun h => if_pos h, fun h => if_pos h⟩
  · rintro sp (rfl | rfl | rfl) <;> rfl
  · rintro sp (rfl | rfl) <;> rfl

/-! ## STATUS and the reset values (10 R40, R41, R49) -/

/-- Settles O9: seven values and four fault kinds, each computed. -/
theorem statusFields : Obligations.StatusFields := by
  refine ⟨rfl, rfl, rfl, rfl, rfl, rfl, by decide, fun k => ?_⟩
  cases k <;> rfl

/-- A default-key byte is a 7-bit character (00 R9). -/
theorem defaultKey_lt (x : Fin 8) : (Config.defaultKey x).toNat < 0x80 := by
  rw [Config.defaultKey, BitVec.toNat_setWidth_of_le (by decide)]
  exact (Config.defaultKeyChar x).isLt

theorem read_defaultKeyCells (x : Fin 8) : Memory.read defaultKeyCells x.val = some (Config.defaultKey x) := by
  fin_cases x <;> rfl

/-- Settles O55: the reset state as it is written, and its eight key cells. -/
theorem resetValues : Obligations.ResetValues :=
  ⟨rfl, rfl, rfl, rfl, fun x => ⟨read_defaultKeyCells x, defaultKey_lt x⟩⟩

/-! ## The two invariants -/

/-- An invariant that takes no notice of the events to come, and that every event keeps, is kept by every step: a step with no
event to come is the engine's turn. -/
theorem step_keeps {P : State → Prop} (hscript : ∀ s l, P s → P { s with script := l })
    (hevent : ∀ e s t, P s → event e s = .next t → P t) {s t : State} (hs : P s) (h : step s = .next t) : P t := by
  obtain ⟨-, hturn⟩ | ⟨e, rest, -, hev⟩ := step_next h
  · exact hevent .engine s t hs hturn
  · exact hevent e _ t (hscript s rest hs) hev

/-! ### The buffers -/

/-- The invariant speaks of the three buffers and their lengths only. -/
theorem BufferInv.congr {s t : State} (h : BufferInv s) (hkeybuf : t.keybuf = s.keybuf) (hkeylen : t.keylen = s.keylen)
    (hinbuf : t.inbuf = s.inbuf) (hinlen : t.inlen = s.inlen) (houtbuf : t.outbuf = s.outbuf) (houtlen : t.outlen = s.outlen) :
    BufferInv t := by
  obtain ⟨h1, h2, h3, h4, h5, h6, h7, h8, h9⟩ := h
  constructor <;> simpa only [hkeybuf, hkeylen, hinbuf, hinlen, houtbuf, houtlen]

/-- An empty OUTBUF goes with OUTLEN = 0 (60 R216). -/
theorem BufferInv.raise {s : State} (h : BufferInv s) (k : FaultKind) : BufferInv (s.raise k) :=
  { h with
    outbuf_wf := Memory.wf_nil
    outbuf_defined := fun _ => rfl
    outlen_le := Nat.zero_le _ }

/-- A result of `n` bytes fills OUTBUF exactly below `n` (10 R37). -/
theorem BufferInv.succeed {s : State} (h : BufferInv s) {out : List Byte} (hout : out.length ≤ Config.outMax) :
    BufferInv (s.succeed out) :=
  { h with
    outbuf_wf := Memory.wf_ofBytes 0 out
    outbuf_defined := fun x => by
      rw [State.succeed_outbuf, Memory.read_ofBytes_zero, Bool.eq_iff_iff, decide_eq_true_iff]
      simp
    outlen_le := hout }

theorem BufferInv.finish {s : State} (h : BufferInv s) {r : Except FaultKind (List Byte)}
    (hr : ∀ out, r = .ok out → out.length ≤ Config.outMax) : BufferInv (s.finish r) := by
  cases r with
  | ok out => exact h.succeed (hr out rfl)
  | error k => exact h.raise k

/-- `OUT_MAX` is room for the longest result of an input within `IN_MAX` (10 R38). -/
theorem BufferInv.result_le_outMax {s : State} (h : BufferInv s) : 2 * s.inlen + 32 ≤ Config.outMax := by
  have := h.inlen_le
  unfold Config.outMax
  omega

theorem exec_keeps_bufferInv {i : Instr} {s t : State} (h : BufferInv s) (hx : exec i s = .next t) : BufferInv t := by
  obtain ⟨c, r, n, rfl, -, -, hlen, -⟩ := exec_finish hx
  refine BufferInv.finish ?_ fun out hr => (hlen out hr).trans h.result_le_outMax
  exact h.congr rfl rfl rfl rfl rfl rfl

theorem mem_write_lt {m : Memory} {x n : Nat} {v : Byte} (hm : ∀ c ∈ m, c.1 < n) (hx : x < n) :
    ∀ c ∈ Memory.write m x v, c.1 < n := by
  intro c hc
  obtain rfl | hc := Memory.mem_write hc
  · exact hx
  · exact hm c hc

theorem BufferInv.writeKeyCell {s : State} (h : BufferInv s) {x : Nat} (hx : x < Config.keyMax) (v : Byte) :
    BufferInv { s with keybuf := Memory.write s.keybuf x v } :=
  { h with
    keybuf_wf := Memory.wf_write x v h.keybuf_wf
    keybuf_room := mem_write_lt h.keybuf_room hx }

theorem BufferInv.writeInCell {s : State} (h : BufferInv s) {x : Nat} (hx : x < Config.inMax) (v : Byte) :
    BufferInv { s with inbuf := Memory.write s.inbuf x v } :=
  { h with
    inbuf_wf := Memory.wf_write x v h.inbuf_wf
    inbuf_room := mem_write_lt h.inbuf_room hx }

theorem hostAccess_keeps_bufferInv {a : Access} {s t : State} (h : BufferInv s) (ha : hostAccess a s = .next t) :
    BufferInv t := by
  obtain ⟨-, rfl⟩ | ⟨-, hacts⟩ := hostAccess_next ha
  · exact h.congr rfl rfl rfl rfl rfl rfl
  obtain ⟨x, v, -, hx, -, rfl⟩ | ⟨x, v, -, hx, -, rfl⟩ | ⟨n, -, hn, rfl⟩ | ⟨n, -, hn, rfl⟩ |
    ⟨c, -, -, ⟨k, -, rfl⟩ | ⟨i, -, -, rfl⟩⟩ | ⟨x, d, n, -, -, rfl⟩ | ⟨n, d, -, -, -, rfl⟩ := hacts
  · exact h.writeKeyCell hx _
  · exact h.writeInCell hx _
  · exact { h with keylen_le := hn }
  · exact { h with inlen_le := hn }
  · exact h.raise k
  · exact h.congr rfl rfl rfl rfl rfl rfl
  · exact h.congr rfl rfl rfl rfl rfl rfl
  · exact h.congr rfl rfl rfl rfl rfl rfl

theorem engineTurn_keeps_bufferInv {s t : State} (h : BufferInv s) (ht : engineTurn s = .next t) : BufferInv t := by
  have hidle : BufferInv { s with command := none } := h.congr rfl rfl rfl rfl rfl rfl
  obtain ⟨-, rfl⟩ | ⟨b, -, ⟨i, -, hx⟩ | ⟨k, -, rfl⟩⟩ := engineTurn_next ht
  · exact h
  · exact exec_keeps_bufferInv hidle hx
  · exact hidle.raise k

/-- The default key is within the capacity, whatever `KEY_MAX` is (00 R9). -/
theorem bufferInv_reset : BufferInv State.reset where
  keybuf_wf := Memory.wf_defaultKeyCells
  keybuf_room := fun c hc => by
    have hlt : ∀ c ∈ defaultKeyCells, c.1 < 8 := by simp [defaultKeyCells]
    exact (hlt c hc).trans_le eight_le_keyMax
  keylen_le := eight_le_keyMax
  inbuf_wf := Memory.wf_nil
  inbuf_room := by simp [State.reset]
  inlen_le := Nat.zero_le _
  outbuf_wf := Memory.wf_nil
  outbuf_defined := fun _ => rfl
  outlen_le := Nat.zero_le _

theorem event_keeps_bufferInv (e : Event) (s t : State) (h : BufferInv s) (ht : event e s = .next t) : BufferInv t := by
  cases e with
  | host a => exact hostAccess_keeps_bufferInv h ht
  | engine => exact engineTurn_keeps_bufferInv h ht
  | draw =>
    obtain ⟨-, -, rfl⟩ | rfl := engineDraw_next ht
    · exact h.congr rfl rfl rfl rfl rfl rfl
    · exact h
  | reset =>
    cases ht
    exact bufferInv_reset.congr rfl rfl rfl rfl rfl rfl
  | source draws =>
    obtain ⟨q, rfl⟩ := sourceAnswers_next ht
    exact h.congr rfl rfl rfl rfl rfl rfl

/-- Settles O58: every event keeps the buffers canonical and within their capacities. -/
theorem stepKeepsBufferInv : Obligations.StepKeepsBufferInv := fun _ _ h ht =>
  step_keeps (fun _ _ hs => hs.congr rfl rfl rfl rfl rfl rfl) event_keeps_bufferInv h ht

/-! ### STATUS and the command in flight -/

theorem ControlInv.command_eq_none {s : State} (h : ControlInv s) (hidle : busyBit s.status = false) : s.command = none := by
  simpa [hidle] using h.busy_iff.symm

theorem ControlInv.taken_eq_nil {s : State} (h : ControlInv s) (hc : s.command ≠ some (encode .encpw)) : s.taken = [] :=
  not_not.1 (mt h.taken_by_encpw hc)

/-- An idle engine has nothing in flight and no draw taken ahead. -/
theorem controlInv_of_idle {s : State} (hstatus : s.status ∈ statusReachable) (hidle : busyBit s.status = false)
    (hc : s.command = none) (ht : s.taken = []) : ControlInv s where
  status_reachable := hstatus
  busy_iff := by simp [hidle, hc]
  launched := by simp [hc]
  taken_le := by simp [ht]
  taken_by_encpw := absurd ht

/-- What WR CMD leaves in flight is a command whose input cells are written (93 U5). -/
theorem controlInv_start {i : Instr} {s : State} {b : Byte} (hb : decodeByte b = .ok i) (hdef : inputsDefined i s = true) :
    ControlInv (s.start b) where
  status_reachable := by simp [statusReachable]
  busy_iff := by simp
  launched := by
    rintro _ ⟨⟩
    exact ⟨i, hb, hdef⟩
  taken_le := Nat.zero_le _
  taken_by_encpw := absurd rfl

theorem statusFault_reachable (k : FaultKind) : statusFault k ∈ statusReachable := by cases k <;> decide

theorem controlInv_raise {s : State} (k : FaultKind) (hc : s.command = none) (ht : s.taken = []) : ControlInv (s.raise k) :=
  controlInv_of_idle (statusFault_reachable k) (busyBit_fault k) hc ht

/-- The command in flight uses up the draws taken ahead, of which there are at most 16 and none unless it is ENCPW. -/
theorem exec_taken_eq_nil {i : Instr} {s t : State} (hle : s.taken.length ≤ 16) (hnil : i ≠ .encpw → s.taken = [])
    (hx : exec i s = .next t) : t.taken = [] := by
  by_cases hi : i = .encpw
  · subst hi
    rw [(execEncpw_draws hx).1, List.drop_eq_nil_of_le hle]
  · rw [(exec_draws_of_ne_encpw hi hx).2.2, hnil hi]

theorem encode_injective {i j : Instr} (h : encode i = encode j) : i = j := by
  simpa using congrArg decodeByte h

theorem engineTurn_keeps_controlInv {s t : State} (h : ControlInv s) (ht : engineTurn s = .next t) : ControlInv t := by
  obtain ⟨-, rfl⟩ | ⟨b, hb, ⟨i, hi, hx⟩ | ⟨k, hk, rfl⟩⟩ := engineTurn_next ht
  · exact h
  · have hnil : i ≠ .encpw → s.taken = [] := fun hne => h.taken_eq_nil fun hc =>
      hne (encode_injective (decodeByte_ok hi ▸ Option.some.inj (hb ▸ hc)))
    obtain ⟨hstatus, hidle⟩ := exec_status hx
    exact controlInv_of_idle hstatus hidle (exec_command hx)
      (exec_taken_eq_nil (s := { s with command := none }) h.taken_le hnil hx)
  · obtain ⟨i, hi, -⟩ := h.launched b hb
    simp [hk] at hi

theorem hostAccess_keeps_controlInv {a : Access} {s t : State} (h : ControlInv s) (ha : hostAccess a s = .next t) :
    ControlInv t := by
  obtain ⟨-, rfl⟩ | ⟨hidle, hacts⟩ := hostAccess_next ha
  · exact ⟨h.status_reachable, h.busy_iff, h.launched, h.taken_le, h.taken_by_encpw⟩
  have hc : s.command = none := h.command_eq_none hidle
  have ht : s.taken = [] := h.taken_eq_nil (by simp [hc])
  obtain ⟨x, v, -, -, -, rfl⟩ | ⟨x, v, -, -, -, rfl⟩ | ⟨n, -, -, rfl⟩ | ⟨n, -, -, rfl⟩ |
    ⟨c, -, -, ⟨k, -, rfl⟩ | ⟨i, hi, hdef, rfl⟩⟩ | ⟨x, d, n, -, -, rfl⟩ | ⟨n, d, -, -, -, rfl⟩ := hacts
  · exact controlInv_of_idle h.status_reachable hidle hc ht
  · exact controlInv_of_idle h.status_reachable hidle hc ht
  · exact controlInv_of_idle h.status_reachable hidle hc ht
  · exact controlInv_of_idle h.status_reachable hidle hc ht
  · exact controlInv_raise k hc ht
  · exact controlInv_start hi hdef
  · exact controlInv_of_idle h.status_reachable hidle hc ht
  · exact controlInv_of_idle h.status_reachable hidle hc ht

theorem engineDraw_keeps_controlInv {s t : State} (h : ControlInv s) (hd : engineDraw s = .next t) : ControlInv t := by
  obtain ⟨hc, hlt, rfl⟩ | rfl := engineDraw_next hd
  · exact ⟨h.status_reachable, h.busy_iff, h.launched, by simpa using Nat.succ_le_of_lt hlt, fun _ => hc⟩
  · exact h

theorem event_keeps_controlInv (e : Event) (s t : State) (h : ControlInv s) (ht : event e s = .next t) : ControlInv t := by
  cases e with
  | host a => exact hostAccess_keeps_controlInv h ht
  | engine => exact engineTurn_keeps_controlInv h ht
  | draw => exact engineDraw_keeps_controlInv h ht
  | reset =>
    cases ht
    exact controlInv_of_idle List.mem_cons_self busyBit_idle rfl rfl
  | source draws =>
    obtain ⟨q, rfl⟩ := sourceAnswers_next ht
    exact ⟨h.status_reachable, h.busy_iff, h.launched, h.taken_le, h.taken_by_encpw⟩

/-- Settles O59: every event keeps STATUS, the byte in flight and the draws taken ahead in step. -/
theorem stepKeepsControlInv : Obligations.StepKeepsControlInv := fun _ _ h ht =>
  step_keeps (fun _ _ hs => ⟨hs.status_reachable, hs.busy_iff, hs.launched, hs.taken_le, hs.taken_by_encpw⟩)
    event_keeps_controlInv h ht

/-- Settles O57: reset leaves an idle engine with the default key. -/
theorem invariantsHoldAtReset : Obligations.InvariantsHoldAtReset :=
  ⟨bufferInv_reset, controlInv_of_idle List.mem_cons_self busyBit_idle rfl rfl⟩

end Sys2Proof.Machine
end

section
/-! The family of 20_memory.md: the engine's turn runs the command in flight, an outcome depends on the operands only, and the
host's accesses: where they land, when they are refused, and when a step completes. -/

namespace Sys2Proof.Machine

/-! ## What an outcome depends on (20 R79) -/

theorem drawSalt_congr {n : Nat} {s u : State} (h : ∀ m, m < n → drawAt u m = drawAt s m) :
    (drawSalt n u).1 = (drawSalt n s).1 := by
  refine List.ext_getElem? fun m => ?_
  by_cases hm : m < n
  · rw [drawSalt_getElem? n u hm, drawSalt_getElem? n s hm, h m hm]
  · rw [List.getElem?_eq_none (by simpa using hm), List.getElem?_eq_none (by simpa using hm)]

/-- The first salt uses draws 0 to 8, the second draws 9 to 15 (43 R180). -/
theorem encpwPayload_congr {s u : State} (h : ∀ m, m < 16 → drawAt u m = drawAt s m) (password : List Byte) :
    encpwPayload u password = encpwPayload s password := by
  have hbefore : (saltBefore u).1 = (saltBefore s).1 := drawSalt_congr fun m hm => h m (hm.trans (by decide))
  have hafter : (saltAfter u).1 = (saltAfter s).1 := drawSalt_congr fun m hm => by
    rw [saltBefore, saltBefore, drawAt_drawSalt, drawAt_drawSalt]
    exact h _ (Nat.add_lt_add_left hm Config.prefixLen)
  rw [encpwPayload, encpwPayload, hbefore, hafter]

/-- Two states show the host the same outcome of a command. -/
def SameOutcome (t v : State) : Prop := v.status = t.status ∧ v.outlen = t.outlen ∧ v.outbuf = t.outbuf

theorem sameOutcome_succeed (s u : State) (out : List Byte) : SameOutcome (s.succeed out) (u.succeed out) := ⟨rfl, rfl, rfl⟩

theorem sameOutcome_raise (s u : State) (k : FaultKind) : SameOutcome (s.raise k) (u.raise k) := ⟨rfl, rfl, rfl⟩

theorem sameOutcome_finish (s u : State) : ∀ r : Except FaultKind (List Byte), SameOutcome (s.finish r) (u.finish r)
  | .ok out => sameOutcome_succeed s u out
  | .error k => sameOutcome_raise s u k

/-- Settles O20: on the same operands each command takes the same one of its ways to end, with the same result. -/
theorem outcomeDependsOnOperandsOnly : Obligations.OutcomeDependsOnOperandsOnly := by
  intro i s u t hin hkey hdraws h
  have hinput : u.input = s.input := State.input_congr hin
  have hkeyEq : usesKey i = true → u.key = s.key := fun hi => State.key_congr (hkey hi)
  cases i with
  | hexenc =>
    obtain ⟨data, hd, rfl⟩ := execHexenc_next.1 h
    exact ⟨_, execHexenc_next.2 ⟨data, hinput.trans hd, rfl⟩, sameOutcome_succeed _ _ _⟩
  | hexdec =>
    obtain ⟨data, hd, rfl⟩ := execHexdec_next.1 h
    exact ⟨_, execHexdec_next.2 ⟨data, hinput.trans hd, rfl⟩, sameOutcome_finish s u _⟩
  | cipher =>
    obtain ⟨key, data, hk, hd, hend⟩ := execCipher_next h
    have hrun := execCipher_eq ((hkeyEq rfl).trans hk) (hinput.trans hd)
    obtain ⟨h0, rfl⟩ | ⟨h0, rfl⟩ := hend
    · exact ⟨_, hrun.trans (if_pos h0), sameOutcome_raise _ _ _⟩
    · exact ⟨_, hrun.trans (if_neg h0), sameOutcome_succeed _ _ _⟩
  | encpw =>
    obtain ⟨key, data, hk, hd, hend⟩ := execEncpw_next h
    have hrun := execEncpw_eq ((hkeyEq rfl).trans hk) (hinput.trans hd)
    rw [encpwPayload_congr (hdraws rfl)] at hrun
    obtain ⟨h0, rfl⟩ | ⟨h0, rfl⟩ := hend
    · exact ⟨_, hrun.trans (if_pos h0), sameOutcome_raise _ _ _⟩
    · exact ⟨_, hrun.trans (if_neg h0), sameOutcome_succeed _ _ _⟩
  | decpw =>
    obtain ⟨key, data, hk, hd, ⟨hx, rfl⟩ | ⟨ct, hx, hend⟩⟩ := execDecpw_next h
    · exact ⟨_, execDecpw_malformed ((hkeyEq rfl).trans hk) (hinput.trans hd) hx, sameOutcome_raise _ _ _⟩
    have hrun := execDecpw_eq ((hkeyEq rfl).trans hk) (hinput.trans hd) hx
    obtain ⟨h0, rfl⟩ | ⟨h0, hlt, rfl⟩ | ⟨h0, hge, rfl⟩ := hend
    · exact ⟨_, hrun.trans (if_pos h0), sameOutcome_raise _ _ _⟩
    · exact ⟨_, hrun.trans ((if_neg h0).trans (if_pos hlt)), sameOutcome_raise _ _ _⟩
    · exact ⟨_, hrun.trans ((if_neg h0).trans (if_neg (not_lt.2 hge))), sameOutcome_succeed _ _ _⟩

/-! ## The host's accesses (20 R60, R66, R73) -/

/-- A byte fits an 8-bit location. -/
theorem not_le_toNat (v : Byte) : ¬ 256 ≤ v.toNat := not_le.2 v.isLt

theorem writeKeyCell_of_lt {x : Nat} (hx : x < Config.keyMax) (v : Byte) (s : State) :
    writeKeyCell x v.toNat s = .next { s with keybuf := Memory.write s.keybuf x v } := by
  simp [writeKeyCell, not_le.2 hx, not_le_toNat]

theorem writeInCell_of_lt {x : Nat} (hx : x < Config.inMax) (v : Byte) (s : State) :
    writeInCell x v.toNat s = .next { s with inbuf := Memory.write s.inbuf x v } := by
  simp [writeInCell, not_le.2 hx, not_le_toNat]

/-- Settles O46: the write goes to the buffer's list, where a read finds it at its own index only. -/
theorem hostCellWritesLand : Obligations.HostCellWritesLand := by
  refine ⟨fun s x v hidle hx => ⟨Memory.write s.keybuf x v, ?_, Memory.read_write_same _ _ _, fun y hy =>
      Memory.read_write_ne _ _ _ _ hy⟩,
    fun s x v hidle hx => ⟨Memory.write s.inbuf x v, ?_, Memory.read_write_same _ _ _, fun y hy =>
      Memory.read_write_ne _ _ _ _ hy⟩⟩
  · exact (hostAccess_wr_of_idle hidle _ _ _).trans (writeKeyCell_of_lt hx v s)
  · exact (hostAccess_wr_of_idle hidle _ _ _).trans (writeInCell_of_lt hx v s)

/-- RD STATUS is answered whether or not the engine is busy (20 R73). -/
theorem hostAccess_rdStatus (s : State) : hostAccess (.rd .reg 1) s = .next (s.returns (.byte s.status)) := by
  simp [hostAccess, isStatusRead, hostRead, readReg]

/-- Settles O48: each read is an entry of the register table. -/
theorem hostRegisterReads : Obligations.HostRegisterReads :=
  ⟨hostAccess_rdStatus, fun _ hidle => ⟨hostAccess_rd_of_idle hidle .reg 2, hostAccess_rd_of_idle hidle .reg 3,
    hostAccess_rd_of_idle hidle .reg 4⟩⟩

/-- Settles O50: the port looks at BUSY before it looks at the access. -/
theorem busyEngineRefusesAccess : Obligations.BusyEngineRefusesAccess := by
  intro s a hbusy hread
  simp [hostAccess, hbusy, hread]

/-! ## The engine's turn (20 R70, R75) -/

/-- A turn with a decoded command in flight is that command's transition. -/
theorem engineTurn_of_command {s : State} {b : Byte} {i : Instr} (hb : s.command = some b) (hi : decodeByte b = .ok i) :
    engineTurn s = exec i { s with command := none } := by
  simp only [engineTurn, hb, hi]

theorem step_of_script_nil {s : State} (hs : s.script = []) : step s = engineTurn s := by
  simp only [step, nextEvent, hs]

theorem step_of_script_cons {s : State} {e : Event} {rest : List Event} (hs : s.script = e :: rest) :
    step s = event e { s with script := rest } := by
  simp only [step, nextEvent, hs]

/-- When the engine has the turn, a step is that turn, with its event, if there is one, taken off the list. -/
theorem step_of_engineNext {s : State} (h : EngineNext s) : step s = engineTurn { s with script := s.script.tail } := by
  obtain hs | ⟨rest, hs⟩ := h
  · rw [step_of_script_nil hs, hs, List.tail_nil, ← hs]
  · rw [step_of_script_cons hs, hs, List.tail_cons, event]

/-- Settles O5: the step is the engine's turn, and the turn is the command. -/
theorem stepRunsDecodedCommand : Obligations.StepRunsDecodedCommand := by
  intro s b i hb hi hturn
  rw [step_of_engineNext hturn]
  exact engineTurn_of_command (s := { s with script := s.script.tail }) hb hi

theorem decodeByte_of_decodeTableWord {w : Nat} {i : Instr} (h : decodeTableWord 8 w = some i) :
    decodeByte (BitVec.ofNat 8 w) = .ok i := by
  simp only [decodeTableWord] at h
  split_ifs at h
  cases hb : decodeByte (BitVec.ofNat 8 w) with
  | error k => simp [hb, Except.toOption] at h
  | ok j => simpa [hb, Except.toOption] using h

/-- Settles O6: the placed word is the byte in flight, and the engine's turn is the first event. -/
theorem stepRunsPlacedWord : Obligations.StepRunsPlacedWord := by
  intro s w i hw
  have hplaced : BitVec.ofNat 8 (w % 2 ^ 8) = BitVec.ofNat 8 w := BitVec.eq_of_toNat_eq (by simp)
  have hbyte : decodeByte (BitVec.ofNat 8 (w % 2 ^ 8)) = .ok i := hplaced ▸ decodeByte_of_decodeTableWord hw
  exact stepRunsDecodedCommand (s.withFetchWord 8 w) _ i rfl hbyte (.inr ⟨s.script, rfl⟩)

/-! ## Which steps complete (20 R60) -/

/-- What the port does it does by the table of 20 R60. -/
theorem accessAllowed_of_hostAccess {a : Access} {s t : State} (h : hostAccess a s = .next t) : accessAllowed a s = true := by
  obtain ⟨rfl, -⟩ | ⟨hidle, hacts⟩ := hostAccess_next h
  · rfl
  obtain ⟨x, v, rfl, hx, hv, -⟩ | ⟨x, v, rfl, hx, hv, -⟩ | ⟨n, rfl, hn, -⟩ | ⟨n, rfl, hn, -⟩ |
    ⟨c, rfl, hc, ⟨k, hk, -⟩ | ⟨i, hi, hdef, -⟩⟩ | ⟨x, d, n, rfl, hx, -⟩ | ⟨n, d, rfl, hn1, hn4, -⟩ := hacts
  · simp [accessAllowed, hidle, hx, hv]
  · simp [accessAllowed, hidle, hx, hv]
  · simp [accessAllowed, hidle, hn]
  · simp [accessAllowed, hidle, hn]
  · simp [accessAllowed, hidle, hc, hk]
  · simp [accessAllowed, hidle, hc, hi, hdef]
  · simp [accessAllowed, hidle, hx]
  · interval_cases n <;> simp [accessAllowed, hidle]

theorem readOutCell_completes {x : Nat} (hx : x < Config.outMax) (s : State) : ∃ t, readOutCell x s = .next t := by
  simp only [readOutCell, if_neg (not_le.2 hx)]
  split <;> exact ⟨_, rfl⟩

/-- The launch premise of 93 U5 is all that can refuse a command byte. -/
theorem launch_completes {b : Byte} {s : State} (h : ∀ i, decodeByte b = .ok i → inputsDefined i s = true) :
    ∃ t, launch b s = .next t := by
  unfold launch
  split
  · exact ⟨_, rfl⟩
  · next i hi => exact ⟨_, if_pos (h i hi)⟩

/-- Each line of the table of 20 R60 is an access the port completes. -/
theorem hostAccess_of_accessAllowed {a : Access} {s : State} (h : accessAllowed a s = true) :
    ∃ t, hostAccess a s = .next t := by
  unfold accessAllowed at h
  split at h
  case h_1 x v =>
    obtain ⟨⟨hidle, hx⟩, hv⟩ : (busyBit s.status = false ∧ x < Config.keyMax) ∧ v < 256 := by simpa using h
    exact ⟨_, (hostAccess_wr_of_idle hidle _ _ _).trans ((if_neg (not_le.2 hx)).trans (if_neg (not_le.2 hv)))⟩
  case h_2 n =>
    obtain ⟨hidle, hn⟩ : busyBit s.status = false ∧ n ≤ Config.keyMax := by simpa using h
    exact ⟨_, (hostAccess_wr_of_idle hidle _ _ _).trans (if_neg (not_lt.2 hn))⟩
  case h_3 x v =>
    obtain ⟨⟨hidle, hx⟩, hv⟩ : (busyBit s.status = false ∧ x < Config.inMax) ∧ v < 256 := by simpa using h
    exact ⟨_, (hostAccess_wr_of_idle hidle _ _ _).trans ((if_neg (not_le.2 hx)).trans (if_neg (not_le.2 hv)))⟩
  case h_4 n =>
    obtain ⟨hidle, hn⟩ : busyBit s.status = false ∧ n ≤ Config.inMax := by simpa using h
    exact ⟨_, (hostAccess_wr_of_idle hidle _ _ _).trans (if_neg (not_lt.2 hn))⟩
  case h_5 c =>
    simp only [Bool.and_eq_true, Bool.not_eq_true', decide_eq_true_eq] at h
    obtain ⟨⟨hidle, hc⟩, hdef⟩ := h
    obtain ⟨t, ht⟩ := launch_completes (b := BitVec.ofNat 8 c) (s := s) fun i hi => by simpa only [hi] using hdef
    exact ⟨t, (hostAccess_wr_of_idle hidle _ _ _).trans ((if_neg (not_le.2 hc)).trans ht)⟩
  case h_6 => exact ⟨_, hostAccess_rdStatus s⟩
  case h_7 | h_8 | h_9 =>
    have hidle : busyBit s.status = false := by simpa using h
    exact ⟨_, hostAccess_rd_of_idle hidle _ _⟩
  case h_10 x =>
    obtain ⟨hidle, hx⟩ : busyBit s.status = false ∧ x < Config.outMax := by simpa using h
    obtain ⟨t, ht⟩ := readOutCell_completes hx s
    exact ⟨t, (hostAccess_rd_of_idle hidle _ _).trans ht⟩
  case h_11 => cases h

theorem hostAccess_completes_iff {a : Access} {s : State} : (∃ t, hostAccess a s = .next t) ↔ accessAllowed a s = true :=
  ⟨fun ⟨_, h⟩ => accessAllowed_of_hostAccess h, hostAccess_of_accessAllowed⟩

/-- Only values above 61 keep the source's answers from the port (10 R45). -/
theorem sourceAnswers_completes_iff {draws : List (BitVec 6)} {s : State} :
    (∃ t, sourceAnswers draws s = .next t) ↔ (draws.all fun d => decide (d.toNat < 62)) = true := by
  unfold sourceAnswers
  split
  · next hall => exact iff_of_true ⟨_, rfl⟩ hall
  · next hall => exact iff_of_false (by simp) hall

/-- A command in flight was launched on written cells, so its turn is not refused. -/
theorem engineTurn_completes {s : State} (h : ControlInv s) : ∃ t, engineTurn s = .next t := by
  cases hc : s.command with
  | none => exact ⟨s, by simp only [engineTurn, hc]⟩
  | some b =>
    obtain ⟨i, hi, hdef⟩ := h.launched b hc
    rw [engineTurn_of_command hc hi]
    obtain ⟨-, hnext⟩ | ⟨hundef, -⟩ := exec_cases i { s with command := none }
    · exact hnext
    · exact absurd hdef (ne_true_of_eq_false hundef)

theorem engineDraw_completes (s : State) : ∃ t, engineDraw s = .next t := by
  unfold engineDraw
  split <;> exact ⟨_, rfl⟩

theorem event_completes_iff {s : State} (h : ControlInv s) (e : Event) :
    (∃ t, event e s = .next t) ↔ eventAllowed e s = true := by
  cases e with
  | host a => exact hostAccess_completes_iff
  | engine => exact iff_of_true (engineTurn_completes h) rfl
  | draw => exact iff_of_true (engineDraw_completes s) rfl
  | reset => exact iff_of_true ⟨_, rfl⟩ rfl
  | source draws => exact sourceAnswers_completes_iff

theorem ControlInv.withScript {s : State} (h : ControlInv s) (l : List Event) : ControlInv { s with script := l } :=
  ⟨h.status_reachable, h.busy_iff, h.launched, h.taken_le, h.taken_by_encpw⟩

/-- Whether an event is allowed does not depend on the events that come later. -/
theorem eventAllowed_withScript (e : Event) (s : State) (l : List Event) :
    eventAllowed e { s with script := l } = eventAllowed e s := rfl

/-- Settles O52: the engine's turn always completes, and each event exactly when it is allowed. -/
theorem stepCompletesExactlyWhenAllowed : Obligations.StepCompletesExactlyWhenAllowed := by
  refine fun s h => ⟨fun hs => ?_, fun e rest hs => ?_⟩
  · rw [step_of_script_nil hs]
    exact engineTurn_completes h
  · rw [step_of_script_cons hs, event_completes_iff (h.withScript rest), eventAllowed_withScript]

/-! ## The result stays (20 R72) -/

/-- Settles O53: the writers of the result are the turn of a command in flight and WR CMD. -/
theorem resultStableUntilNextCommand : Obligations.ResultStableUntilNextCommand := by
  intro s t e rest hs hcmd hreset hidle h
  have hwrites : WritesOf (some e) s t := by
    simpa [hs] using step_writes (by simpa [hs] using hreset) h
  by_contra hchanged
  obtain ⟨-, hbusy⟩ | ⟨c, hc⟩ := hwrites.result (by simpa only [not_and_or] using hchanged)
  · exact hbusy hidle
  · obtain rfl := Option.some.inj hc
    cases hcmd

end Sys2Proof.Machine
end

section
/-! The family of 30_encoding.md: the command byte read and written, the reserved codes, the tables of hex digits, hex values and
salt characters, and the lengths of all results. -/

namespace Sys2Proof.Machine

/-! ## The command byte (30 R91, R92, R94) -/

/-- The code of a command, as a word of one byte, decodes to it. -/
theorem decodeTableWord_encode (i : Instr) : decodeTableWord 8 (encode i).toNat = some i := by
  have hwf : wordWf 8 (encode i).toNat = true := by simpa [wordWf] using (encode i).isLt
  simp [decodeTableWord, hwf, Except.toOption]

/-- Settles O1: each of the five words is the code of its command. -/
theorem commandWordsDecode : Obligations.CommandWordsDecode :=
  ⟨decodeTableWord_encode .hexenc, decodeTableWord_encode .hexdec, decodeTableWord_encode .encpw,
   decodeTableWord_encode .decpw, decodeTableWord_encode .cipher⟩

/-- Settles O2: `decodeByte_encode` one way, `decodeByte_ok` the other. -/
theorem decodeEncodeAgree : Obligations.DecodeEncodeAgree :=
  ⟨fun i _ => decodeByte_encode i, fun _ _ h => (decodeByte_ok h).symm⟩

/-- The codes are the dense range 0x01 .. 0x05 (30 R91). -/
theorem encode_toNat_mem_Icc (i : Instr) : (encode i).toNat ∈ Set.Icc 1 5 := by
  cases i <;> simp [encode]

/-- A byte outside the range of the codes is the code of no command, so the decoder names it IllegalCommand (30 R92). -/
theorem decodeByte_of_reserved {b : Byte} (h : b = 0x00 ∨ 0x06 ≤ b.toNat) : decodeByte b = .error .illegalCommand := by
  cases hd : decodeByte b with
  | error k => rw [decodeByte_error hd]
  | ok i =>
    obtain rfl := decodeByte_ok hd
    obtain ⟨hlow, hhigh⟩ := encode_toNat_mem_Icc i
    obtain h | h := h
    · simp [h] at hlow
    · omega

theorem launch_of_reserved {b : Byte} (h : decodeByte b = .error .illegalCommand) (s : State) :
    launch b s = .next (s.raise .illegalCommand) := by
  simp only [launch, h]

/-- Fault entry keeps the frame of a command (60 R216). -/
theorem State.raise_commandFrame (s : State) (k : FaultKind) : CommandFrame s (s.raise k) := by
  constructor <;> simp

/-- Settles O3: the write of a reserved code is fault entry with IllegalCommand. -/
theorem reservedCodesFault : Obligations.ReservedCodesFault := by
  intro b hb
  have hdec : decodeByte b = .error .illegalCommand := decodeByte_of_reserved hb
  refine ⟨hdec, fun s hidle => ⟨s.raise .illegalCommand, ?_, rfl, rfl, rfl, rfl, rfl, rfl, s.raise_commandFrame _⟩⟩
  rw [hostAccess_wrCmd hidle, launch_of_reserved hdec]

/-! ## The tables (30 R97, R98, R100) -/

/-- Settles O21: the three ranges of digits are disjoint, and each is one branch of `hexValue`. -/
theorem hexValueTable : Obligations.HexValueTable := by
  intro c
  refine ⟨fun hlow hhigh => ?digit, fun hlow hhigh => ?upper, fun hlow hhigh => ?lower, fun hdigit hupper hlower => ?invalid⟩
  case digit => exact if_pos ⟨hlow, hhigh⟩
  case upper => rw [hexValue, if_neg (by omega), if_pos ⟨hlow, hhigh⟩]
  case lower => rw [hexValue, if_neg (by omega), if_neg (by omega), if_pos ⟨hlow, hhigh⟩]
  case invalid => rw [hexValue, if_neg hdigit, if_neg hupper, if_neg hlower]

/-- Settles O38: both tables are finite, 16 and 62 entries, and are compared entry by entry. -/
theorem digitAndAlphabetTables : Obligations.DigitAndAlphabetTables := by
  refine ⟨fun n hn => ?_, ?_⟩
  · interval_cases n <;> decide
  · decide

/-! ## The lengths of the results (30 R106) -/

/-- HexDec succeeds on an even number of hex digits (42 R162). -/
theorem hexDec_of_allHex {s : State} {data : List Byte} (hd : s.input = some data) (heven : s.inlen % 2 = 0) (hhex : AllHex s) :
    hexDec data = .ok ((List.range (s.inlen / 2)).map (hexByteAt s)) := by
  obtain ⟨hlen, hread⟩ := State.input_eq_some.1 hd
  have hvalue : ∀ x, x < s.inlen → data[x]?.bind hexValue = some ((hexValue (inByte s x)).getD 0) := fun x hx => by
    obtain ⟨v, hv⟩ := Option.isSome_iff_exists.1 (hhex x hx)
    have hcell : data[x]? = some (inByte s x) := by simp [inByte, hread x hx, hlen, hx]
    simp [hcell, hv]
  refine hexDec_ok_iff.2 ⟨by simp; omega, fun k hk => ?_⟩
  have hk' : k < s.inlen / 2 := by simpa using hk
  exact ⟨_, _, hvalue (2 * k) (by omega), hvalue (2 * k + 1) (by omega), by simp [hk', hexByteAt]⟩

theorem State.inlen_of_hexDec_ok {s : State} {data b : List Byte} (hd : s.input = some data) (hx : hexDec data = .ok b) :
    s.inlen = 2 * b.length :=
  (State.input_eq_some.1 hd).1.symm.trans (hexDec_ok_iff.1 hx).1

theorem execHexenc_lengths {s t : State} (h : exec .hexenc s = .next t) :
    errBit t.status = false ∧ t.outlen = 2 * s.inlen := by
  obtain ⟨data, hd, rfl⟩ := execHexenc_next.1 h
  simp [(State.input_eq_some.1 hd).1]

theorem execHexdec_lengths {s t : State} (h : exec .hexdec s = .next t) :
    (errBit t.status = false → s.inlen % 2 = 0 ∧ t.outlen = s.inlen / 2) ∧ (s.inlen % 2 = 1 → t.status = 0x26) := by
  obtain ⟨data, hd, rfl⟩ := execHexdec_next.1 h
  cases hx : hexDec data with
  | error k =>
    obtain rfl := hexDec_error hx
    simp
  | ok b =>
    have hlen := State.inlen_of_hexDec_ok hd hx
    simp [hlen]

theorem execEncpw_lengths {s t : State} (h : exec .encpw s = .next t) :
    (errBit t.status = false → t.outlen = 2 * s.inlen + 32) ∧ (s.keylen ≠ 0 → errBit t.status = false) := by
  obtain ⟨key, data, hk, hd, ⟨hempty, rfl⟩ | ⟨-, rfl⟩⟩ := execEncpw_next h
  · simp [← (State.key_eq_some.1 hk).1, hempty]
  · simp [(State.input_eq_some.1 hd).1, Nat.mul_add]

theorem execCipher_lengths {s t : State} (h : exec .cipher s = .next t) :
    (errBit t.status = false → t.outlen = s.inlen) ∧ (s.keylen ≠ 0 → errBit t.status = false) := by
  obtain ⟨key, data, hk, hd, ⟨hempty, rfl⟩ | ⟨-, rfl⟩⟩ := execCipher_next h
  · simp [← (State.key_eq_some.1 hk).1, hempty]
  · simp [(State.input_eq_some.1 hd).1]

/-- DECPW meets its faults in the order of 43 R186: the odd length at HexDec, the empty key at SCHED, the short payload last. -/
theorem execDecpw_lengths {s t : State} (h : exec .decpw s = .next t) :
    (errBit t.status = false → s.inlen % 2 = 0 ∧ 16 ≤ s.inlen / 2 ∧ t.outlen = s.inlen / 2 - 16) ∧
    (s.inlen % 2 = 1 → t.status = 0x26) ∧
    (s.inlen % 2 = 0 → s.inlen / 2 < 16 → AllHex s → s.keylen ≠ 0 → t.status = 0x36) := by
  obtain ⟨key, data, hk, hd, ⟨hx, rfl⟩ | ⟨ct, hx, hend⟩⟩ := execDecpw_next h
  · have hbad : s.inlen % 2 = 0 → ¬ AllHex s := fun heven hhex => by simp [hexDec_of_allHex hd heven hhex] at hx
    simp +contextual [hbad]
  have hlen := State.inlen_of_hexDec_ok hd hx
  obtain ⟨hempty, rfl⟩ | ⟨-, hshort, rfl⟩ | ⟨-, hlong, rfl⟩ := hend
  · simp [hlen, ← (State.key_eq_some.1 hk).1, hempty]
  · simp [hlen]
  · simp [hlen, hlong]

/-- Settles O14: the lengths of each command, read off the ways it can end. -/
theorem lengthRelations : Obligations.LengthRelations :=
  ⟨fun _ _ => execHexenc_lengths, fun _ _ => execHexdec_lengths, fun _ _ => execEncpw_lengths, fun _ _ => execDecpw_lengths,
   fun _ _ => execCipher_lengths⟩

end Sys2Proof.Machine
end

section
/-! The family of 40_keyscheduler.md: SCHED rejects the empty key only, iterates as the spec states, keeps T a permutation, and
reads the key through `KEYBUF[I mod KEYLEN]` for I below 256. -/

namespace Sys2Proof.Machine

/-! ## The empty key (40 R121) -/

theorem sched_eq_invalidKey_iff {key : List Byte} : sched key = .error .invalidKey ↔ key.length = 0 := by
  refine ⟨fun herr => ?_, sched_of_length_eq_zero⟩
  by_contra hne
  rw [sched_of_length_ne_zero hne] at herr
  cases herr

/-- With the empty key no command gets past SCHED, so T, I and J are not written (log 10). -/
theorem exec_cipher_of_keylen_eq_zero {i : Instr} {s t : State} (hempty : s.keylen = 0) (h : exec i s = .next t) :
    t.cipher = s.cipher := by
  obtain ⟨c, r, n, rfl, -, hc, -⟩ := exec_finish h
  simpa using hc (.inr hempty)

/-- Settles O28: SCHED compares KEYLEN with 0 before anything else. -/
theorem schedRejectsOnlyEmptyKey : Obligations.SchedRejectsOnlyEmptyKey :=
  ⟨fun _ => sched_eq_invalidKey_iff, fun _ hne => ⟨_, sched_of_length_ne_zero hne⟩,
   fun _ _ _ _ hempty => exec_cipher_of_keylen_eq_zero hempty⟩

/-! ## The iterations (40 R122, R123) -/

/-- The iteration whose loop counter is the byte `i`, as one equation. -/
theorem schedAfter_toNat_succ (key : List Byte) (i : Byte) :
    schedAfter key (i.toNat + 1) =
      let c := schedAfter key i.toNat
      let j := c.J + keyByte key i.toNat + tableGet c.T i
      { T := tableSwap c.T i j, I := i, J := j } := by
  simp [schedAfter, schedStep]

/-- Settles O29: one iteration is `schedStep`, and what its swap leaves in each cell is `tableGet_swap`. -/
theorem schedIteratesAsStated : Obligations.SchedIteratesAsStated := by
  refine ⟨fun key x => ⟨tableGet_identity x, rfl⟩, fun key n i hkey hi => ?_,
    fun key hkey => sched_of_length_ne_zero (Nat.ne_of_gt hkey)⟩
  subst hi
  have hindex : i.toNat % key.length < key.length := Nat.mod_lt _ hkey
  rw [schedAfter_toNat_succ]
  refine ⟨rfl, ⟨hindex, ?_⟩, fun x => tableGet_swap _ _ _ x⟩
  simp [BitVec.toNat_add, keyByte_eq hindex]

/-! ## T is a permutation (40 R124, 10 R32) -/

theorem schedAfter_isPermutation (key : List Byte) (n : Nat) : IsPermutation (schedAfter key n).T := by
  induction n with
  | zero => exact isPermutation_identity
  | succ n ih => exact isPermutation_swap _ _ ih

theorem xformAfter_isPermutation {c : Cipher} (h : IsPermutation c.T) (k : Nat) : IsPermutation (xformAfter c k).T := by
  induction k with
  | zero => exact h
  | succ k ih => exact isPermutation_swap _ _ ih

/-- SCHED that succeeds leaves the registers of its 256th iteration. -/
theorem eq_schedAfter_of_sched_eq_ok {key : List Byte} {c : Cipher} (h : sched key = .ok c) : c = schedAfter key 256 := by
  obtain ⟨-, herr⟩ | ⟨-, hok⟩ := sched_cases key
  · cases herr.symm.trans h
  · exact Except.ok.inj (h.symm.trans hok)

/-- Settles O30: both loops start from a permutation and only swap cells; SCHED is a function of the key bytes. -/
theorem tableIsPermutation : Obligations.TableIsPermutation := by
  refine ⟨fun key c h => ?_, fun s u key key' hsame hs hu => ?_, fun key n k => ?_⟩
  · rw [eq_schedAfter_of_sched_eq_ok h]
    exact schedAfter_isPermutation key 256
  · have hkey : some key' = some key := hu.symm.trans ((State.key_congr hsame).trans hs)
    rw [Option.some.inj hkey]
  · exact ⟨schedAfter_isPermutation key n, xformAfter_isPermutation (schedAfter_isPermutation key n) k⟩

/-! ## Which key bytes matter (40 R125) -/

/-- SCHED reads a key only through the bytes of its 256 iterations. -/
theorem sched_congr {key key' : List Byte} (hempty : key.length = 0 ↔ key'.length = 0)
    (hbytes : ∀ x, x < 256 → keyByte key x = keyByte key' x) : sched key = sched key' := by
  simp only [sched, hempty, schedAfter_congr hbytes]

/-- Below the key's length the reduction mod KEYLEN does nothing. -/
theorem keyByte_of_lt {key : List Byte} {x : Nat} (h : x < key.length) : keyByte key x = key[x] := by
  simp [keyByte, Nat.mod_eq_of_lt h, h]

theorem keyByte_eq_of_take_eq {key key' : List Byte} {n x : Nat} (hn : n ≤ key.length) (hn' : n ≤ key'.length)
    (htake : key.take n = key'.take n) (hx : x < n) : keyByte key x = keyByte key' x := by
  have hcell : (key.take n)[x]? = (key'.take n)[x]? := congrArg (·[x]?) htake
  rw [keyByte_of_lt (hx.trans_le hn), keyByte_of_lt (hx.trans_le hn')]
  simpa [hx, hx.trans_le hn, hx.trans_le hn'] using hcell

/-- Cell `x` of a list written `m` times over. -/
theorem getElem?_flatten_replicate {α : Type} {l : List α} {m x : Nat} (hx : x < m * l.length) :
    (List.replicate m l).flatten[x]? = l[x % l.length]? := by
  induction m generalizing x with
  | zero => simp at hx
  | succ m ih =>
    rw [List.replicate_succ, List.flatten_cons]
    by_cases hfirst : x < l.length
    · rw [List.getElem?_append_left hfirst, Nat.mod_eq_of_lt hfirst]
    · have hle : l.length ≤ x := not_lt.1 hfirst
      rw [List.getElem?_append_right hle, ih (by rw [Nat.succ_mul] at hx; omega), ← Nat.mod_eq_sub_mod hle]

theorem keyByte_flatten_replicate (key : List Byte) {m : Nat} (hm : 1 ≤ m) (x : Nat) :
    keyByte (List.replicate m key).flatten x = keyByte key x := by
  obtain rfl | hne := eq_or_ne key []
  · simp
  have hlen : (List.replicate m key).flatten.length = m * key.length := by simp
  have hlt : x % (m * key.length) < m * key.length := Nat.mod_lt _ (Nat.mul_pos hm (List.length_pos_of_ne_nil hne))
  rw [keyByte, keyByte, List.getD_eq_getElem?_getD, List.getD_eq_getElem?_getD, hlen, getElem?_flatten_replicate hlt,
    Nat.mod_mul_left_mod]

/-- Settles O31: the two keys of each equation give every iteration the same key byte; byte `x` of a short key is read by the
iteration I = x. -/
theorem schedKeyBytesThatMatter : Obligations.SchedKeyBytesThatMatter := by
  refine ⟨fun key key' hlen hlen' htake => ?_, fun key m hm => ?_, fun key x hlen hx => ?_⟩
  · exact sched_congr (by omega) fun x hx => keyByte_eq_of_take_eq hlen hlen' htake hx
  · exact sched_congr (by simp [Nat.ne_of_gt hm]) fun x _ => keyByte_flatten_replicate key hm x
  · exact ⟨x, hx.trans_le hlen, Nat.mod_eq_of_lt hx⟩

end Sys2Proof.Machine
end

section
/-! The family of 41_keystream.md: what one iteration of XFORM does, that its masks depend on the table alone, and so that XFORM,
and CIPHER with it, undoes itself under the same key. -/

namespace Sys2Proof.Machine

/-! ## The iterations (41 R140 to R142) -/

/-- XFORM makes one iteration a byte (41 R140). -/
theorem xform_cipher (c : Cipher) (data : List Byte) : (xform c data).2 = xformAfter c data.length := by
  rw [xformAfter_eq_iterate]
  exact (xformLoop_spec _ data).2.1

/-- Settles O32: one iteration is `xformStep`, what its swap leaves in each cell is `tableGet_swap`, and `xform_getElem?` gives the
output bytes. -/
theorem xformIteratesAsStated : Obligations.XformIteratesAsStated := by
  refine ⟨fun c => ⟨rfl, rfl, rfl⟩, fun c k => ?_, fun c data => ⟨xform_length c data, xform_cipher c data, xform_getElem? c data⟩⟩
  refine ⟨BitVec.toNat_add _ _, BitVec.toNat_add _ _, fun x => tableGet_swap _ _ _ x, ?_⟩
  exact ⟨_, BitVec.toNat_add _ _, rfl⟩

/-! ## The masks do not depend on the data (41 R143) -/

/-- Input byte XOR output byte is the mask of the position, which the data do not enter. -/
theorem xor_xform_getElem? {c : Cipher} {data : List Byte} {k : Nat} {b o : Byte} (hb : data[k]? = some b)
    (ho : (xform c data).1[k]? = some o) : b ^^^ o = mask (xformAfter c (k + 1)) := by
  obtain rfl : b ^^^ mask (xformAfter c (k + 1)) = o := by simpa [xform_getElem?, hb] using ho
  rw [← BitVec.xor_assoc, BitVec.xor_self, BitVec.zero_xor]

/-- The first bytes of the output are the output of the first bytes. -/
theorem xform_take (c : Cipher) (data : List Byte) (n : Nat) : (xform c data).1.take n = (xform c (data.take n)).1 := by
  refine List.ext_getElem? fun k => ?_
  rw [xform_getElem?, List.getElem?_take, List.getElem?_take]
  split
  · exact xform_getElem? c data k
  · rfl

/-- Settles O33: a mask is one of `xformAfter`, which takes no data. -/
theorem xformMaskIgnoresData : Obligations.XformMaskIgnoresData := by
  refine fun c d e => ⟨fun k b b' o o' hb hb' ho ho' => ?_, fun n htake => ?_, fun hlen => ?_⟩
  · rw [xor_xform_getElem? hb ho, xor_xform_getElem? hb' ho']
  · rw [xform_take, xform_take, htake]
  · rw [xform_cipher, xform_cipher, hlen]

/-! ## XFORM undoes itself on the same table (41 R145) -/

/-- Each byte meets the same mask twice. -/
theorem xform_xform (c : Cipher) (data : List Byte) : (xform c (xform c data).1).1 = data := by
  refine List.ext_getElem? fun k => ?_
  rw [xform_getElem?, xform_getElem?, Option.map_map]
  simp [Function.comp_def]

/-- Settles O34: SCHED of one key leaves one table, and on it `xform_xform` holds. -/
theorem xformSelfInverse : Obligations.XformSelfInverse := by
  intro key c c' d hc hc'
  rw [eq_schedAfter_of_sched_eq_ok hc, eq_schedAfter_of_sched_eq_ok hc']
  exact xform_xform _ d

/-! ## CIPHER (41 R146, R147) -/

/-- CIPHER with a non-empty key, as one equation. -/
theorem exec_cipher_of_keylen_pos {s : State} {key data : List Byte} (hk : s.key = some key) (hd : s.input = some data)
    (hpos : 1 ≤ s.keylen) :
    exec .cipher s =
      .next ((s.setCipher (xform (schedAfter key 256) data).2).succeed (xform (schedAfter key 256) data).1) := by
  have hne : key.length ≠ 0 := by rw [(State.key_eq_some.1 hk).1]; omega
  exact (execCipher_eq hk hd).trans (if_neg hne)

/-- Settles O35: the result of CIPHER is XFORM's output, laid out from cell 0. -/
theorem cipherWritesMaskedInput : Obligations.CipherWritesMaskedInput := by
  intro s hkey hin hpos
  obtain ⟨data, hd, hlen, hbyte⟩ := State.input_of_written hin
  refine ⟨_, exec_cipher_of_keylen_pos (State.key_of_written hkey) hd hpos, rfl, by simp [hlen], fun k hk => ?_⟩
  simp [xform_getElem?, hbyte k hk, maskByte]

/-- A result copied back is the next command's input (30 R105). -/
theorem State.input_of_copiedBack_succeed {s u : State} {out : List Byte} (h : CopiedBack (s.succeed out) u) :
    u.input = some out := by
  obtain ⟨hlen, hcells⟩ := h
  refine State.input_eq_some.2 ⟨hlen.symm, fun k hk => ?_⟩
  rw [hcells k (hlen ▸ hk)]
  exact Memory.read_ofBytes_zero k out

/-- Settles O36: the second CIPHER has the first one's output as input and the same scheduled table, so `xform_xform` gives back
the original bytes. -/
theorem cipherTwiceIsIdentity : Obligations.CipherTwiceIsIdentity := by
  intro s t u hkey hin hpos ht hback hsame
  obtain ⟨data, hd⟩ := Option.isSome_iff_exists.1 (State.input_isSome.2 hin)
  obtain ⟨hlen, hread⟩ := State.input_eq_some.1 hd
  have hks : s.key = some (keyBytes s) := State.key_of_written hkey
  rw [exec_cipher_of_keylen_pos hks hd hpos] at ht
  cases ht
  have hu := exec_cipher_of_keylen_pos ((State.key_congr hsame).trans hks) (State.input_of_copiedBack_succeed hback)
    (hsame.1 ▸ hpos)
  rw [xform_xform] at hu
  exact ⟨_, hu, rfl, hlen, fun x hx => by simp [hread x hx]⟩

end Sys2Proof.Machine
end

section
/-! The family of 42_hexcodec.md: what HEXENC and HEXDEC write, when HEXDEC faults, and the two round trips of the hex codec. -/

namespace Sys2Proof.Machine

/-! ## HEXENC (42 R160, R161) -/

theorem exec_hexenc_of_input {s : State} {data : List Byte} (hd : s.input = some data) :
    exec .hexenc s = .next (s.succeed (hexEnc data)) :=
  execHexenc_next.2 ⟨data, hd, rfl⟩

/-- Settles O22: the result of HEXENC is HexEnc of the input, laid out from cell 0, and `hexEnc_getElem?` gives its characters. -/
theorem hexencWritesHexString : Obligations.HexencWritesHexString := by
  intro s hin
  obtain ⟨data, hd, hlen, hbyte⟩ := State.input_of_written hin
  refine ⟨_, exec_hexenc_of_input hd, rfl, by simp [hlen], fun k hk => ?_⟩
  obtain ⟨hhigh, hlow⟩ := hexEnc_getElem? data k
  simp [hhigh, hlow, hbyte k hk]

/-! ## HEXDEC (42 R162, R163) -/

theorem exec_hexdec_of_input {s : State} {data : List Byte} (hd : s.input = some data) :
    exec .hexdec s = .next (s.finish (hexDec data)) :=
  execHexdec_next.2 ⟨data, hd, rfl⟩

/-- Settles O23: HexDec of the input is the list of the bytes `hexByteAt`, whose digits have values as every character is one. -/
theorem hexdecWritesBytes : Obligations.HexdecWritesBytes := by
  intro s hin heven hhex
  obtain ⟨data, hd, -, -⟩ := State.input_of_written hin
  have hexec := exec_hexdec_of_input hd
  rw [hexDec_of_allHex hd heven hhex, State.finish_ok] at hexec
  refine ⟨_, hexec, rfl, by simp, fun k hk => ?_⟩
  obtain ⟨hi, hhi⟩ := Option.isSome_iff_exists.1 (hhex (2 * k) (by omega))
  obtain ⟨lo, hlo⟩ := Option.isSome_iff_exists.1 (hhex (2 * k + 1) (by omega))
  exact ⟨hi, lo, hhi, hlo, by simp [hk, hexByteAt, byteOfDigits, hhi, hlo]⟩

/-- HexDec succeeds on hex digits only: character `x` is one of the two that byte `x / 2` is read from. -/
theorem allHex_of_hexDec_ok {s : State} {data b : List Byte} (hd : s.input = some data) (hx : hexDec data = .ok b) : AllHex s := by
  intro x hlt
  have hcell : data[x]? = Memory.read s.inbuf x := ((State.input_eq_some.1 hd).2 x hlt).symm
  have hlen := State.inlen_of_hexDec_ok hd hx
  obtain ⟨hi, lo, hhi, hlo, -⟩ := (hexDec_ok_iff.1 hx).2 (x / 2) (by omega)
  obtain ⟨v, hv⟩ : ∃ v, data[x]?.bind hexValue = some v := by
    obtain heven | hodd := Nat.mod_two_eq_zero_or_one x
    · exact ⟨hi, by rwa [show 2 * (x / 2) = x by omega] at hhi⟩
    · exact ⟨lo, by rwa [show 2 * (x / 2) + 1 = x by omega] at hlo⟩
  obtain ⟨c, hc, hcv⟩ := Option.bind_eq_some_iff.1 hv
  simp [inByte, ← hcell, hc, hcv]

/-- Settles O24: a success of HexDec would mean an even length and hex digits throughout, and its one fault is MalformedHex. -/
theorem hexdecRaisesMalformedHex : Obligations.HexdecRaisesMalformedHex := by
  intro s hin hbad
  obtain ⟨data, hd, -, -⟩ := State.input_of_written hin
  have hexec := exec_hexdec_of_input hd
  cases hx : hexDec data with
  | error k =>
    obtain rfl := hexDec_error hx
    exact ⟨_, by rwa [hx] at hexec, rfl, rfl⟩
  | ok b =>
    have hlen := State.inlen_of_hexDec_ok hd hx
    exact (hbad.elim (by omega) fun hnot => hnot (allHex_of_hexDec_ok hd hx)).elim

/-! ## Decoding what was encoded (42 R164) -/

/-- Each byte is put together again from the values of its own two digits. -/
theorem hexDec_hexEnc (b : List Byte) : hexDec (hexEnc b) = .ok b := by
  refine hexDec_ok_iff.2 ⟨hexEnc_length b, fun k hk => ?_⟩
  obtain ⟨hhigh, hlow⟩ := hexEnc_getElem? b k
  have hlt := b[k].isLt
  refine ⟨b[k].toNat / 16, b[k].toNat % 16, ?_, ?_, by simp [hk, byteOfDigits_nibbles]⟩
  · rw [hhigh]
    simp [hk, hexValue_hexDigit (show b[k].toNat / 16 ≤ 15 by omega)]
  · rw [hlow]
    simp [hk, hexValue_hexDigit (show b[k].toNat % 16 ≤ 15 by omega)]

/-- Settles O25: the second command's input is HexEnc of the first one's, so `hexDec_hexEnc` gives back the original bytes. -/
theorem hexRoundTrip : Obligations.HexRoundTrip := by
  refine ⟨hexDec_hexEnc, fun s t u hin ht hback => ?_⟩
  obtain ⟨data, hd, rfl⟩ := execHexenc_next.1 ht
  obtain ⟨hlen, hread⟩ := State.input_eq_some.1 hd
  have hexec := exec_hexdec_of_input (State.input_of_copiedBack_succeed hback)
  rw [hexDec_hexEnc, State.finish_ok] at hexec
  exact ⟨_, hexec, rfl, hlen, fun x hx => by simp [hread x hx]⟩

/-! ## Encoding what was decoded (42 R165) -/

/-- The two digits of a byte are the characters it was read from, in upper case. -/
theorem hexDigit_byteOfDigits {c d : Byte} {hi lo : Nat} (hc : hexValue c = some hi) (hd : hexValue d = some lo) :
    hexDigit ((byteOfDigits hi lo).toNat / 16) = upperHex c ∧ hexDigit ((byteOfDigits hi lo).toNat % 16) = upperHex d := by
  have hhi := hexValue_le hc
  have hlo := hexValue_le hd
  rw [byteOfDigits_toNat hhi hlo, show (16 * hi + lo) / 16 = hi by omega, show (16 * hi + lo) % 16 = lo by omega]
  exact ⟨hexDigit_hexValue hc, hexDigit_hexValue hd⟩

/-- Characters `2k` and `2k+1` of the encoding of a decoded string are those of the string, in upper case. -/
theorem hexEnc_pair_of_hexDec_ok {s b : List Byte} (h : hexDec s = .ok b) {k : Nat} (hk : k < b.length) :
    (hexEnc b)[2 * k]? = s[2 * k]?.map upperHex ∧ (hexEnc b)[2 * k + 1]? = s[2 * k + 1]?.map upperHex := by
  obtain ⟨hi, lo, hhi, hlo, hbyte⟩ := (hexDec_ok_iff.1 h).2 k hk
  obtain ⟨c, hc, hcv⟩ := Option.bind_eq_some_iff.1 hhi
  obtain ⟨d, hd, hdv⟩ := Option.bind_eq_some_iff.1 hlo
  obtain ⟨hhigh, hlow⟩ := hexDigit_byteOfDigits hcv hdv
  simp [hexEnc_getElem?, hbyte, hc, hd, hhigh, hlow]

theorem hexEnc_of_hexDec_ok {s b : List Byte} (h : hexDec s = .ok b) : hexEnc b = s.map upperHex := by
  have hlen := (hexDec_ok_iff.1 h).1
  refine List.ext_getElem? fun x => ?_
  rw [List.getElem?_map]
  by_cases hx : x < 2 * b.length
  · obtain ⟨heven, hodd⟩ := hexEnc_pair_of_hexDec_ok h (show x / 2 < b.length by omega)
    obtain hmod | hmod := Nat.mod_two_eq_zero_or_one x
    · rwa [show 2 * (x / 2) = x by omega] at heven
    · rwa [show 2 * (x / 2) + 1 = x by omega] at hodd
  · rw [List.getElem?_eq_none (by simp; omega), List.getElem?_eq_none (by omega), Option.map_none]

/-- Settles O26: `hexEnc_of_hexDec_ok`, and upper case changes no string without a lower-case digit. -/
theorem hexCaseNormalisation : Obligations.HexCaseNormalisation := by
  refine fun s b h => ⟨hexEnc_of_hexDec_ok h, fun hupper => ?_⟩
  have hkeep : ∀ c ∈ s, upperHex c = c := fun c hc => if_neg (hupper c hc)
  rw [hexEnc_of_hexDec_ok h, List.map_congr_left hkeep, List.map_id']

/-! ## What the engine emits as hex (42 R161, 43 R184) -/

theorem hexDigit_mem_digits {n : Nat} (h : n ≤ 15) : hexDigit n ∈ ascii "0123456789ABCDEF" :=
  List.mem_of_getElem? (digitAndAlphabetTables.1 n h).symm

theorem mem_digits_of_mem_hexEnc {b : List Byte} {c : Byte} (h : c ∈ hexEnc b) : c ∈ ascii "0123456789ABCDEF" := by
  induction b with
  | nil => cases h
  | cons x rest ih =>
    have hlt := x.isLt
    simp only [hexEnc, List.mem_cons] at h
    obtain rfl | rfl | hrest := h
    · exact hexDigit_mem_digits (by omega)
    · exact hexDigit_mem_digits (by omega)
    · exact ih hrest

/-- `t` holds as its result an even number of upper-case hex digits. -/
def HoldsUpperHex (t : State) : Prop :=
  t.outlen % 2 = 0 ∧ ∀ x, x < t.outlen → ∃ c, Memory.read t.outbuf x = some c ∧ c ∈ ascii "0123456789ABCDEF"

theorem holdsUpperHex_succeed_hexEnc (s : State) (b : List Byte) : HoldsUpperHex (s.succeed (hexEnc b)) := by
  refine ⟨by simp, fun x hx => ?_⟩
  exact ⟨_, (Memory.read_ofBytes_zero x _).trans (List.getElem?_eq_getElem hx), mem_digits_of_mem_hexEnc (List.getElem_mem hx)⟩

theorem holdsUpperHex_raise (s : State) (k : FaultKind) : HoldsUpperHex (s.raise k) :=
  ⟨rfl, fun _ hx => absurd hx (Nat.not_lt_zero _)⟩

/-- Settles O27: both commands succeed with a result of HexEnc, and a faulting ENCPW leaves no result. -/
theorem hexOutputIsUpperCase : Obligations.HexOutputIsUpperCase := by
  rintro i s t (rfl | rfl) h
  case inl =>
    obtain ⟨data, -, rfl⟩ := execHexenc_next.1 h
    exact holdsUpperHex_succeed_hexEnc s _
  case inr =>
    obtain ⟨key, data, -, -, ⟨-, rfl⟩ | ⟨-, rfl⟩⟩ := execEncpw_next h
    · exact holdsUpperHex_raise _ _
    · exact holdsUpperHex_succeed_hexEnc _ _

end Sys2Proof.Machine
end

section
/-! The family of 43_saltedpassword.md: the two salts, what ENCPW writes and which of its characters the draws decide, how DECPW
ends, and the round trip of a password. -/

namespace Sys2Proof.Machine

/-! ## SALT (43 R180, R181) -/

theorem drawSalt_eq_map (n : Nat) (s : State) : (drawSalt n s).1 = (List.range n).map fun m => alpha (drawAt s m) := by
  induction n generalizing s with
  | zero => rfl
  | succ n ih => simp [drawSalt, ih, draw_eq_drawAt, drawAt_afterDraw, List.range_succ_eq_map]

/-- The second salt begins where the first one's nine draws end. -/
theorem saltAfter_eq_map (s : State) : (saltAfter s).1 = (List.range 7).map fun m => alpha (drawAt s (9 + m)) := by
  simp only [saltAfter, drawSalt_eq_map, saltBefore, drawAt_drawSalt]

/-- A salt character is a 7-bit code between `'0'` and `'z'` (43 R181). -/
theorem alpha_toNat_bounds : ∀ r : Fin 62, 0x30 ≤ (alpha r).toNat ∧ (alpha r).toNat ≤ 0x7A := by decide

/-- Settles O39: both salts are runs of `drawSalt`, the second from the state the first one leaves, and each of their characters is
one of `alpha`. -/
theorem saltTakesSixteenDraws : Obligations.SaltTakesSixteenDraws := by
  refine fun s => ⟨drawSalt_eq_map 9 s, saltAfter_eq_map s, saltAfter_state s, fun c hc => ?_⟩
  obtain ⟨r, rfl⟩ : ∃ r, alpha r = c := by
    rw [saltBefore, drawSalt_eq_map, saltAfter_eq_map, List.mem_append, List.mem_map, List.mem_map] at hc
    obtain ⟨m, -, hm⟩ | ⟨m, -, hm⟩ := hc
    · exact ⟨_, hm⟩
    · exact ⟨_, hm⟩
  exact alpha_toNat_bounds r

/-! ## ENCPW (43 R182) -/

/-- ENCPW with a non-empty key, as one equation. -/
theorem exec_encpw_of_keylen_pos {s : State} {key data : List Byte} (hk : s.key = some key) (hd : s.input = some data)
    (hpos : 1 ≤ s.keylen) :
    exec .encpw s =
      .next (((saltAfter s).2.setCipher (xform (schedAfter key 256) (encpwPayload s data)).2).succeed
        (hexEnc (xform (schedAfter key 256) (encpwPayload s data)).1)) := by
  have hne : key.length ≠ 0 := by rw [(State.key_eq_some.1 hk).1]; omega
  exact (execEncpw_eq hk hd).trans (if_neg hne)

/-- Settles O40: the result of ENCPW is HexEnc of XFORM's output, and `encpwPayload_getElem?` gives the payload's bytes. -/
theorem encpwWritesCiphertext : Obligations.EncpwWritesCiphertext := by
  intro s hkey hin hpos
  obtain ⟨data, hd, hlen, -⟩ := State.input_of_written hin
  refine ⟨_, exec_encpw_of_keylen_pos (State.key_of_written hkey) hd hpos, rfl, by simp [hlen, Nat.mul_add], fun k hk => ?_⟩
  obtain ⟨hhigh, hlow⟩ := hexEnc_getElem? (xform (schedAfter (keyBytes s) 256) (encpwPayload s data)).1 k
  simp [hhigh, hlow, xform_getElem?, encpwPayload_getElem? hd hk, maskByte]

/-! ## What the draws decide of the ciphertext (43 R184) -/

theorem payloadByte_firstSalt (s : State) {k : Nat} (h : k < 9) : payloadByte s k = alpha (drawAt s k) := if_pos h

theorem payloadByte_password (s : State) {k : Nat} (hlow : 9 ≤ k) (hhigh : k < 9 + s.inlen) :
    payloadByte s k = inByte s (k - 9) := by
  rw [payloadByte, if_neg (by omega), if_pos hhigh]

theorem payloadByte_secondSalt (s : State) (k : Nat) : payloadByte s (9 + s.inlen + k) = alpha (drawAt s (9 + k)) := by
  rw [payloadByte, if_neg (by omega), if_neg (by omega), show 9 + s.inlen + k - s.inlen = 9 + k by omega]

/-- Two bytes have the same two digits only when they are the same byte. -/
theorem hexDigits_eq_iff {a b : Byte} :
    hexDigit (a.toNat / 16) = hexDigit (b.toNat / 16) ∧ hexDigit (a.toNat % 16) = hexDigit (b.toNat % 16) ↔ a = b := by
  refine ⟨fun ⟨hhigh, hlow⟩ => ?_, fun h => h ▸ ⟨rfl, rfl⟩⟩
  have ha := a.isLt
  have hb := b.isLt
  rw [← byteOfDigits_nibbles a, ← byteOfDigits_nibbles b, hexDigit_injective (by omega) (by omega) hhigh,
    hexDigit_injective (by omega) (by omega) hlow]

theorem keyBytes_congr {s u : State} (h : SameKey s u) : keyBytes u = keyBytes s := by
  rw [keyBytes, keyBytes, h.1]
  exact List.map_congr_left fun x hx => by rw [keyCell, keyCell, h.2 x (List.mem_range.1 hx)]

/-- A command that uses the key and answers a next state had its key and its input written (93 U5). -/
theorem written_of_exec {i : Instr} {s t : State} (hi : usesKey i = true) (h : exec i s = .next t) :
    KeyWritten s ∧ InputWritten s := by
  obtain ⟨hdef, -⟩ | ⟨-, hrefused⟩ := exec_cases i s
  · exact ⟨(inputsDefined_iff.1 hdef).2 hi, (inputsDefined_iff.1 hdef).1⟩
  · cases hrefused.symm.trans h

/-- The characters a run of ENCPW has written, whose operands were written as it answered a next state. -/
theorem encpw_chars {s t : State} (hne : s.keylen ≠ 0) (ht : exec .encpw s = .next t) {k : Nat} (hk : k < s.inlen + 16) :
    Memory.read t.outbuf (2 * k) = some (hexDigit ((payloadByte s k ^^^ maskByte (keyBytes s) k).toNat / 16)) ∧
    Memory.read t.outbuf (2 * k + 1) = some (hexDigit ((payloadByte s k ^^^ maskByte (keyBytes s) k).toNat % 16)) := by
  obtain ⟨hkey, hin⟩ := written_of_exec rfl ht
  obtain ⟨t', ht', -, -, hchars⟩ := encpwWritesCiphertext s hkey hin (by omega)
  cases ht.symm.trans ht'
  exact hchars k hk

/-- Under one key the masks are the same, so two runs of ENCPW show the same two characters exactly where their payload bytes are
the same. -/
theorem encpw_chars_eq_iff {s u t v : State} (hsame : SameKey s u) (hne : s.keylen ≠ 0) (ht : exec .encpw s = .next t)
    (hv : exec .encpw u = .next v) {k : Nat} (hs : k < s.inlen + 16) (hu : k < u.inlen + 16) :
    (Memory.read t.outbuf (2 * k) = Memory.read v.outbuf (2 * k) ∧
      Memory.read t.outbuf (2 * k + 1) = Memory.read v.outbuf (2 * k + 1)) ↔ payloadByte s k = payloadByte u k := by
  obtain ⟨hthigh, htlow⟩ := encpw_chars hne ht hs
  obtain ⟨hvhigh, hvlow⟩ := encpw_chars (hsame.1 ▸ hne) hv hu
  rw [hthigh, htlow, hvhigh, hvlow, keyBytes_congr hsame, Option.some.injEq, Option.some.injEq, hexDigits_eq_iff,
    BitVec.xor_left_inj]

theorem alpha_eq_iff {a b : Fin 62} : alpha a = alpha b ↔ a = b := ⟨alpha_injective, congrArg alpha⟩

/-- Settles O41: `encpw_chars_eq_iff` for a payload byte of the first salt, of the password and of the second salt. -/
theorem encpwSaltPositions : Obligations.EncpwSaltPositions := by
  intro s u t v hsame hne ht hv
  refine ⟨fun k hk => ?firstSalt, fun ⟨hlen, hcells⟩ => ⟨fun x hlow hhigh => ?password, fun k hk => ?secondSalt⟩⟩
  case firstSalt =>
    rw [encpw_chars_eq_iff hsame hne ht hv (by omega) (by omega), payloadByte_firstSalt s hk, payloadByte_firstSalt u hk, alpha_eq_iff]
  case password =>
    have hbyte : payloadByte s (x / 2) = payloadByte u (x / 2) := by
      rw [payloadByte_password s (by omega) (by omega), payloadByte_password u (by omega) (by omega), inByte, inByte,
        hcells _ (by omega)]
    obtain ⟨heven, hodd⟩ := (encpw_chars_eq_iff hsame hne ht hv (by omega) (by omega)).2 hbyte
    obtain hmod | hmod := Nat.mod_two_eq_zero_or_one x
    · rwa [show 2 * (x / 2) = x by omega] at heven
    · rwa [show 2 * (x / 2) + 1 = x by omega] at hodd
  case secondSalt =>
    have hu := payloadByte_secondSalt u k
    rw [hlen] at hu
    rw [show 18 + 2 * s.inlen + 2 * k = 2 * (9 + s.inlen + k) by omega,
      encpw_chars_eq_iff hsame hne ht hv (by omega) (by omega), payloadByte_secondSalt, hu, alpha_eq_iff]

/-! ## DECPW (43 R185 to R187, R190) -/

/-- DECPW of a hex string of at least 16 bytes under a non-empty key, as one equation. -/
theorem exec_decpw_of_sixteen_le {s : State} {key data ct : List Byte} (hk : s.key = some key) (hd : s.input = some data)
    (hpos : 1 ≤ s.keylen) (hx : hexDec data = .ok ct) (hlong : 16 ≤ ct.length) :
    exec .decpw s =
      .next ((s.setCipher (xform (schedAfter key 256) ct).2).succeed (stripSalts (xform (schedAfter key 256) ct).1)) := by
  have hne : key.length ≠ 0 := by rw [(State.key_eq_some.1 hk).1]; omega
  exact (execDecpw_eq hk hd hx).trans ((if_neg hne).trans (if_neg (not_lt.2 hlong)))

/-- Settles O42: the decoded bytes are `hexByteAt`, XFORM masks them, and `stripSalts_getElem?` leaves those from 9 on. -/
theorem decpwWritesStrippedBytes : Obligations.DecpwWritesStrippedBytes := by
  intro s hkey hin hpos heven hhex hlong
  obtain ⟨data, hd, -, -⟩ := State.input_of_written hin
  have hexec := exec_decpw_of_sixteen_le (State.key_of_written hkey) hd hpos (hexDec_of_allHex hd heven hhex) (by simpa using hlong)
  refine ⟨_, hexec, rfl, by simp, fun x hx => ?_⟩
  have hlt : 9 + x < s.inlen / 2 := by omega
  rw [State.succeed_outbuf, Memory.read_ofBytes_zero, stripSalts_getElem? _ (by simpa using hx), xform_getElem?]
  simp [hlt, maskByte]

/-- HexDec raises its one fault on every input that is no hex string (42 R162). -/
theorem hexDec_of_not_hex {s : State} {data : List Byte} (hd : s.input = some data) (hbad : s.inlen % 2 = 1 ∨ ¬ AllHex s) :
    hexDec data = .error .malformedHex := by
  cases hx : hexDec data with
  | error k => rw [hexDec_error hx]
  | ok b =>
    have hlen := State.inlen_of_hexDec_ok hd hx
    exact (hbad.elim (by omega) fun hnot => hnot (allHex_of_hexDec_ok hd hx)).elim

/-- Settles O43: each clause is the branch of DECPW that its conditions select. -/
theorem decpwFaultOrder : Obligations.DecpwFaultOrder := by
  intro s hkey hin
  obtain ⟨data, hd, -, -⟩ := State.input_of_written hin
  have hk := State.key_of_written hkey
  have hrun := fun heven hhex => execDecpw_eq hk hd (hexDec_of_allHex hd heven hhex)
  refine ⟨fun hbad => ?malformed, fun heven hhex hempty => ?emptyKey, fun heven hhex hpos hshort => ?short⟩
  case malformed => exact ⟨_, execDecpw_malformed hk hd (hexDec_of_not_hex hd hbad), rfl, rfl⟩
  case emptyKey => exact ⟨_, (hrun heven hhex).trans (if_pos (by simpa using hempty)), rfl, rfl⟩
  case short =>
    have hne : (keyBytes s).length ≠ 0 := by rw [keyBytes_length]; omega
    exact ⟨_, (hrun heven hhex).trans ((if_neg hne).trans (if_pos (by simpa using hshort))), rfl, rfl⟩

/-- Settles O44: the first part goes through the four ways DECPW can end, the second is O42 at its least length. -/
theorem decpwLengthCheck : Obligations.DecpwLengthCheck := by
  refine ⟨fun s t h => ?_, fun s t h hlen hhex hne => ?_⟩
  · obtain ⟨key, data, hk, hd, ⟨hx, rfl⟩ | ⟨ct, hx, hend⟩⟩ := execDecpw_next h
    · have hbad : s.inlen % 2 = 0 → ¬ AllHex s := fun heven hhex => by simp [hexDec_of_allHex hd heven hhex] at hx
      simp +contextual [hbad]
    have hlen := State.inlen_of_hexDec_ok hd hx
    have hkeylen := (State.key_eq_some.1 hk).1
    obtain ⟨hempty, rfl⟩ | ⟨hne, hshort, rfl⟩ | ⟨-, hlong, rfl⟩ := hend
    · simp [← hkeylen, hempty]
    · simp [hlen, allHex_of_hexDec_ok hd hx, ← hkeylen, hne, hshort]
    · simp [hlen, hlong]
  · obtain ⟨hkey, hin⟩ := written_of_exec rfl h
    obtain ⟨t', ht', hstatus, houtlen, -⟩ := decpwWritesStrippedBytes s hkey hin (by omega) (by omega) hhex (by omega)
    cases h.symm.trans ht'
    exact ⟨hstatus, by simpa [hlen] using houtlen⟩

/-! ## The round trip (43 R189) -/

/-- Stripping the payload leaves the password (30 R101). -/
theorem stripSalts_encpwPayload (s : State) (password : List Byte) : stripSalts (encpwPayload s password) = password := by
  have hbefore : (saltBefore s).1.length = Config.prefixLen := drawSalt_length _ s
  rw [stripSalts, encpwPayload_length, encpwPayload, payload, List.append_assoc, ← hbefore, List.drop_left]
  exact List.take_left

/-- Settles O45: HexDec undoes HexEnc, XFORM undoes itself under the same key, and stripping undoes the payload. -/
theorem passwordRoundTrip : Obligations.PasswordRoundTrip := by
  intro s t u hkey hin hpos ht hback hsame
  obtain ⟨data, hd⟩ := Option.isSome_iff_exists.1 (State.input_isSome.2 hin)
  obtain ⟨hlen, hread⟩ := State.input_eq_some.1 hd
  have hks : s.key = some (keyBytes s) := State.key_of_written hkey
  rw [exec_encpw_of_keylen_pos hks hd hpos] at ht
  cases ht
  have hu := exec_decpw_of_sixteen_le ((State.key_congr hsame).trans hks) (State.input_of_copiedBack_succeed hback)
    (hsame.1 ▸ hpos) (hexDec_hexEnc _) (by simp)
  rw [xform_xform, stripSalts_encpwPayload] at hu
  exact ⟨_, hu, rfl, hlen, fun x hx => by simp [hread x hx]⟩

end Sys2Proof.Machine
end

section
/-! The family of 60_exceptions.md: what fault entry leaves, which command can raise which kind, the empty key, and a faulting command
issued again. -/

namespace Sys2Proof.Machine

/-! ## Fault entry (60 R216) -/

theorem statusFault_mem (k : FaultKind) : statusFault k ∈ [0x16, 0x26, 0x36, 0x46] := by cases k <;> decide

theorem kindField_statusFault (k : FaultKind) : kindField (statusFault k) = kindCode k := by cases k <;> rfl

/-- Settles O10: STATUS becomes `statusFault k`, whose fields are known for each kind; the key and the input are not written. -/
theorem faultEntryReportsKind : Obligations.FaultEntryReportsKind := fun _ k =>
  ⟨rfl, busyBit_fault k, doneBit_fault k, errBit_fault k, kindField_statusFault k, statusFault_mem k, rfl, rfl, rfl, rfl⟩

/-! ## The empty key (60 R211) -/

theorem keyWritten_of_keylen_eq_zero {s : State} (hempty : s.keylen = 0) : KeyWritten s := fun _ hk => by omega

/-- Settles O37: SCHED rejects the empty key, in CIPHER at once and in ENCPW after the draws of SALT. -/
theorem emptyKeyRaisesInvalidKey : Obligations.EmptyKeyRaisesInvalidKey := by
  intro i s hi hin hempty
  obtain ⟨data, hd, -, -⟩ := State.input_of_written hin
  have hk : s.key = some (keyBytes s) := State.key_of_written (keyWritten_of_keylen_eq_zero hempty)
  have hlen : (keyBytes s).length = 0 := (keyBytes_length s).trans hempty
  obtain rfl | rfl := hi
  · exact ⟨_, (execCipher_eq hk hd).trans (if_pos hlen), rfl, rfl⟩
  · exact ⟨_, (execEncpw_eq hk hd).trans (if_pos hlen), rfl, rfl⟩

/-! ## Which command can raise which kind (60 R221) -/

/-- The row of a command in the table of 60 R221: it succeeds, or it reports one of its own kinds. -/
theorem exec_status_mem {i : Instr} {s t : State} (h : exec i s = .next t) :
    t.status ∈ 0x02 :: (kindsOf i).map statusFault := by
  obtain ⟨c, r, n, rfl, -, -, -, hkind⟩ := exec_finish h
  cases r with
  | ok out => exact List.mem_cons_self
  | error k => exact List.mem_cons_of_mem _ (List.mem_map_of_mem (hkind k rfl))

/-- The reset state with the empty key in place of the default key. -/
def resetNoKey : State := { State.reset with keylen := 0 }

/-- The reset state with one input character, an odd number. -/
def resetOddInput : State := { State.reset with inbuf := [(0, 0x30)], inlen := 1 }

/-- An empty input is written, whatever INBUF holds. -/
theorem inputWritten_of_inlen_eq_zero {s : State} (hempty : s.inlen = 0) : InputWritten s := fun _ hk => by omega

/-- The empty string is a hex string. -/
theorem allHex_of_inlen_eq_zero {s : State} (hempty : s.inlen = 0) : AllHex s := fun _ hk => by omega

theorem keyWritten_reset : KeyWritten State.reset := fun k hk =>
  Option.isSome_iff_exists.2 ⟨_, read_defaultKeyCells ⟨k, hk⟩⟩

theorem inputWritten_resetOddInput : InputWritten resetOddInput := State.input_isSome.1 rfl

/-- A byte that is no command's code ends at the write with IllegalCommand (60 R215). -/
theorem hostAccess_wrCmd_of_undecoded {b : Byte} {s : State} (hb : ∀ i, decodeByte b ≠ .ok i) (hidle : busyBit s.status = false) :
    hostAccess (.wr .reg 0 b.toNat) s = .next (s.raise .illegalCommand) := by
  cases hd : decodeByte b with
  | ok i => exact absurd hd (hb i)
  | error k =>
    obtain rfl := decodeByte_error hd
    rw [hostAccess_wrCmd hidle, launch_of_reserved hd]

/-- An outcome of a command in one state, as an occurrence of its STATUS. -/
theorem exists_exec_status {i : Instr} {s : State} {st : Byte} (h : ∃ t, exec i s = .next t ∧ t.status = st ∧ t.outlen = 0) :
    ∃ s t, exec i s = .next t ∧ t.status = st :=
  have ⟨t, ht, hstatus, _⟩ := h
  ⟨s, t, ht, hstatus⟩

/-- Settles O13: each row is `exec_status_mem`; each fault occurs in a state near reset: with an odd input, with the empty key, or
(PayloadTooShort) at reset itself, whose input is the empty hex string. -/
theorem whichCommandRaisesWhichKind : Obligations.WhichCommandRaisesWhichKind := by
  have hin : InputWritten resetNoKey := inputWritten_of_inlen_eq_zero rfl
  obtain ⟨hmalformed, -, -⟩ := decpwFaultOrder resetOddInput keyWritten_reset inputWritten_resetOddInput
  obtain ⟨-, hnoKey, -⟩ := decpwFaultOrder resetNoKey (keyWritten_of_keylen_eq_zero rfl) hin
  obtain ⟨-, -, hshort⟩ := decpwFaultOrder State.reset keyWritten_reset (inputWritten_of_inlen_eq_zero rfl)
  refine ⟨fun _ _ h => List.mem_singleton.1 (exec_status_mem h), fun _ _ => exec_status_mem, fun _ _ => exec_status_mem,
    fun _ _ => exec_status_mem, fun _ _ => exec_status_mem,
    exists_exec_status (hexdecRaisesMalformedHex resetOddInput inputWritten_resetOddInput (.inl rfl)),
    exists_exec_status (emptyKeyRaisesInvalidKey .encpw resetNoKey (.inr rfl) hin rfl),
    exists_exec_status (hnoKey rfl (allHex_of_inlen_eq_zero rfl) rfl), exists_exec_status (hmalformed (.inl rfl)),
    exists_exec_status (hshort rfl (allHex_of_inlen_eq_zero rfl) (by decide) (by decide)),
    exists_exec_status (emptyKeyRaisesInvalidKey .cipher resetNoKey (.inl rfl) hin rfl), fun b s t hb hidle h => ?_⟩
  cases (hostAccess_wrCmd_of_undecoded hb hidle).symm.trans h
  rfl

/-! ## A faulting command issued again (60 R219) -/

theorem InputWritten.congr {s u : State} (h : InputWritten s) (hsame : SameInput s u) : InputWritten u := by
  rwa [← State.input_isSome, State.input_congr hsame, State.input_isSome]

/-- ENCPW has one way to fault, the empty key (43 R183). -/
theorem keylen_eq_zero_of_encpw_fault {s t : State} (h : exec .encpw s = .next t) (herr : errBit t.status = true) :
    s.keylen = 0 := by
  by_contra hne
  simp [(execEncpw_lengths h).2 hne] at herr

/-- ENCPW's fault is decided by the key's length alone, so other draws do not change it. -/
theorem encpw_retry {s t u : State} (h : exec .encpw s = .next t) (herr : errBit t.status = true) (hkey : SameKey s u)
    (hin : SameInput s u) : ∃ v, exec .encpw u = .next v ∧ v.status = t.status := by
  have hempty : s.keylen = 0 := keylen_eq_zero_of_encpw_fault h herr
  obtain ⟨-, hwritten⟩ := written_of_exec rfl h
  obtain ⟨t', ht', hstatus, -⟩ := emptyKeyRaisesInvalidKey .encpw s (.inr rfl) hwritten hempty
  obtain ⟨v, hv, hvstatus, -⟩ := emptyKeyRaisesInvalidKey .encpw u (.inr rfl) (hwritten.congr hin) (hkey.1.trans hempty)
  cases h.symm.trans ht'
  exact ⟨v, hv, hvstatus.trans hstatus.symm⟩

/-- Settles O15: the outcome depends on the operands only (O20), which but for ENCPW are the key and the input. -/
theorem retryFaultsAgain : Obligations.RetryFaultsAgain := by
  intro i s t u h herr hkey hin
  by_cases hi : i = .encpw
  · subst hi
    exact encpw_retry h herr hkey hin
  · obtain ⟨v, hv, hstatus, -⟩ := outcomeDependsOnOperandsOnly i s u t hin (fun _ => hkey) (absurd · hi) h
    exact ⟨v, hv, hstatus⟩

end Sys2Proof.Machine
end

section
/-! The family of 70_reset_and_hazards.md: the idle engine, the end of a started command, and the reset input. -/

namespace Sys2Proof.Machine

/-! ## The end of a started command (70 R258) -/

/-- Both ways a command can end set DONE (10 R41, 60 R216). -/
theorem exec_done {i : Instr} {s t : State} (h : exec i s = .next t) : doneBit t.status = true := by
  obtain ⟨c, r, n, rfl, -⟩ := exec_finish h
  cases r with
  | ok out => exact doneBit_success
  | error k => exact doneBit_fault k

/-- What is in flight while BUSY = 1 is the byte of a command (20 R75, 30 R92). -/
theorem ControlInv.exists_command_of_busy {s : State} (h : ControlInv s) (hbusy : busyBit s.status = true) :
    ∃ b i, s.command = some b ∧ decodeByte b = .ok i := by
  obtain ⟨b, hb⟩ := Option.isSome_iff_exists.1 (h.busy_iff.symm.trans hbusy)
  obtain ⟨i, hi, -⟩ := h.launched b hb
  exact ⟨b, i, hb, hi⟩

theorem step_completes_of_engineNext {s : State} (h : ControlInv s) (hturn : EngineNext s) : ∃ t, step s = .next t := by
  rw [step_of_engineNext hturn]
  exact engineTurn_completes (h.withScript s.script.tail)

/-- Settles O8: the turn completes, it is the transition of the command in flight (O5), and every transition ends with BUSY = 0
and DONE = 1. -/
theorem startedCommandEnds : Obligations.StartedCommandEnds := by
  intro s hinv hbusy hturn
  obtain ⟨b, i, hb, hi⟩ := hinv.exists_command_of_busy hbusy
  obtain ⟨t, ht⟩ := step_completes_of_engineNext hinv hturn
  have hexec : exec i { s with command := none, script := s.script.tail } = .next t :=
    (stepRunsDecodedCommand s b i hb hi hturn).symm.trans ht
  exact ⟨t, ht, (exec_status hexec).2, exec_done hexec, exec_command hexec⟩

/-! ## The idle engine (70 R241) -/

theorem engineTurn_of_idle {s : State} (hidle : s.command = none) : engineTurn s = .next s := by
  simp only [engineTurn, hidle]

theorem step_of_idle {s : State} (hidle : s.command = none) (hs : s.script = []) : step s = .next s :=
  (step_of_script_nil hs).trans (engineTurn_of_idle hidle)

/-- Settles O7: with no event to come the engine has the turn, and the turn of an idle engine changes nothing; reset leaves the
engine idle. -/
theorem idleEngineExecutesNothing : Obligations.IdleEngineExecutesNothing :=
  ⟨fun _ => step_of_idle, step_of_idle rfl rfl⟩

/-! ## The reset input (70 R240, R242) -/

theorem step_of_script_reset {s : State} {rest : List Event} (hs : s.script = .reset :: rest) :
    step s = .next ({ s with script := rest } : State).applyReset :=
  step_of_script_cons hs

/-- An ENCPW in flight with a draw left to take takes it. -/
theorem step_of_script_draw {s : State} {rest : List Event} (hs : s.script = .draw :: rest)
    (hc : s.command = some (encode .encpw)) (hlt : s.taken.length < 16) :
    step s = .next ({ s with script := rest } : State).takeDraw :=
  (step_of_script_cons hs).trans (if_pos ⟨hc, hlt⟩)

/-- Settles O56: the reset input writes the reset values and leaves the RND port alone, so a draw taken before it stays consumed;
that draw moved from the port to those kept for SALT, which changes none of the draws SALT would use. -/
theorem resetInputAbandonsCommand : Obligations.ResetInputAbandonsCommand := by
  refine ⟨fun s rest hs => ?_, fun s rest hs hc hlt => ?_⟩
  · exact ⟨_, step_of_script_reset hs, rfl, rfl, rfl, rfl, read_defaultKeyCells, rfl, rfl, rfl, rfl, rfl⟩
  · exact ⟨_, _, step_of_script_draw hs hc hlt, rfl, rfl, drawAt_takeDraw { s with script := .reset :: rest },
      step_of_script_reset rfl, rfl, List.drop_one.symm, rfl, rfl⟩

end Sys2Proof.Machine
end
